-- ==== Sys2Proof/Word.lean ====
section
/-! DEFINITION. The machine words of the InOne codec core: the 32-bit register word (R30), the WRAM byte (R70), and
the two bit orderings of a stream over a byte array (R77). -/

namespace Sys2Proof

/-- A register value or a command word: every CSR is 32 bits wide (R30, R106). -/
abbrev Word := BitVec 32

/-- One byte of WRAM, of `RXBUF` or of a raw frame (R70, R46, R200). -/
abbrev Byte := BitVec 8

/-- The two bit-addressing conventions of R77: `msb` is MSB-first-in-byte (the default), `lsb` is LSB-first-in-byte. -/
inductive BitOrder where
  | msb
  | lsb
deriving DecidableEq, Repr

end Sys2Proof
end

