-- ==== Sys2Proof/Config.lean ====
section
/-! DEFINITION. The implementation parameters of R8 at their defaults, and the one free value of the model: what a WRAM
byte holds after a reset (R71). -/

namespace Sys2Proof

/-- `RAW_BLOCK_BYTES`: bytes of the receive accumulation buffer and of one raw block (R8). -/
abbrev Config.rawBlockBytes : Nat := 60

/-- `S1_OFFSET`: Manchester input offset of the first decode stage, in pair units (R8, R163). -/
abbrev Config.s1Offset : Nat := 2

/-- `S1_BITS`: bits decoded by the first Manchester stage (R8). -/
abbrev Config.s1Bits : Nat := 60

/-- `S1_FRAME_BYTES`: bytes frame-decoded by the first framing stage (R8). -/
abbrev Config.s1FrameBytes : Nat := 6

/-- `S2_OFFSET`: Manchester input offset of the extra-byte stage, in pair units (R8, R163). -/
abbrev Config.s2Offset : Nat := 62

/-- `S2_BITS_PER_BYTE`: Manchester-decoded bits per extra byte (R8). -/
abbrev Config.s2BitsPerByte : Nat := 10

/-- `EXTRA_BYTES`: extra payload bytes per length class; class 3 is invalid (R8, R201). -/
def Config.extraBytes (cls : BitVec 2) : Option Nat :=
  match cls.toNat with
  | 0 => some 0
  | 1 => some 1
  | 2 => some 3
  | _ => none

/-- `MAX_FRAME_BYTES`: bytes of the longest raw frame (R8). -/
abbrev Config.maxFrameBytes : Nat := 9

/-- `RESYNC_MS`: the inactivity bound of the resync timeout, compared with a strict `>` (R8, R236). -/
abbrev Config.resyncMs : Nat := 600

/-- `CRC_POLY`: the CRC-8 polynomial in LSB-first form (R8, R203). -/
abbrev Config.crcPoly : Byte := 0x8C#8

/-- `CRC_INIT`: the initial value of the CRC-8 (R8, R203). -/
abbrev Config.crcInit : Byte := 0x00#8

/-- `WRAM_BYTES`: bytes of the work RAM (R8, R70). -/
abbrev Config.wramBytes : Nat := 256

/-- `ERRCNT_BITS`: width of the error count (R8, R34). -/
abbrev Config.errcntBits : Nat := 16

/-- `TIME_BITS`: width of `NOW` and `LASTACT` (R8, R40), and so the modulus of the resync's difference (R236). -/
abbrev Config.timeBits : Nat := 32

/-- `FRAME_PAYLOAD_ORDER`: the ordering of the payload side of the framing codec, ONE value for FDEC, FENC and the
receive pipeline (R8, R79, R185). -/
abbrev Config.framePayloadOrder : BitOrder := .lsb

/-- Size of the host window: CSRs at 0x000-0x0FF, WRAM at 0x100-0x1FF (R74). -/
abbrev Config.windowBytes : Nat := 0x200

/-- Window offset of `WRAM[0]` (R74). -/
abbrev Config.wramWindow : Nat := 0x100

/-- FREE VALUE (log entry 1). What byte `a` of WRAM holds after the `n`-th reset, until it is written (R71: "a free
draw ... it must not assume 0"). It has no body: nothing can be proved about which byte it is. -/
opaque Config.wramAtReset : Nat → Nat → Byte

end Sys2Proof
end

