-- ==== Sys2Proof/Syntax.lean ====
section
/-! DEFINITION. The commands of the block, one constructor per row of the opcode table (R102, R108). A command word
has no operand fields (R101): every operand is one of the registers `ARG0`-`ARG3` (R103), so no constructor has an
argument. A name ending in `L` is the row with `ORD` = 1 (`.L`), one ending in `A` the row with `ACC` = 1 (`.A`). -/

namespace Sys2Proof

/-- The 23 command words of R108. -/
inductive Instr where
  | setbit
  | setbitL
  | clrbit
  | clrbitL
  | defbit
  | defbitL
  | getbit
  | getbitL
  | setnib
  | setnibL
  | getnib
  | getnibL
  | mdec
  | mdecA
  | menc
  | fdec
  | fdecA
  | fenc
  | crc8
  | crcchk
  | rxappend
  | rxpoll
  | rxget
deriving DecidableEq, Repr

end Sys2Proof
end

