-- ==== Sys2Proof/WellFormed.lean ====
section
/-! DEFINITION. Well-formedness of a command word, said over its fields (R100) from the opcode map (R102) and the
legality rule (R104), one named check for each clause of R104. Decode.lean decides the same thing in its own way; that the two
agree is a statement, not a definition. -/

namespace Sys2Proof

/-- The fields of a command word (R100). -/
structure CmdFields where
  op : BitVec 5
  rsv7to5 : BitVec 3
  ord : Bool
  acc : Bool
  rsv31to10 : BitVec 22
deriving DecidableEq, Repr

/-- The fields of a 32-bit word, at the bit places of R100. -/
def CmdFields.ofWord (w : Word) : CmdFields where
  op := w.extractLsb' 0 5
  rsv7to5 := w.extractLsb' 5 3
  ord := w.getLsbD 8
  acc := w.getLsbD 9
  rsv31to10 := w.extractLsb' 10 22

/-- The opcodes with "`ORD` allowed: yes" (R102): the six BitBuffer commands. -/
def ordOpcodes : List (BitVec 5) := [0x01, 0x02, 0x03, 0x04, 0x05, 0x06]

/-- The opcodes with "`ACC` allowed: yes" (R102): MDEC and FDEC. -/
def accOpcodes : List (BitVec 5) := [0x08, 0x0A]

/-- The opcodes that allow neither modifier (R102). -/
def plainOpcodes : List (BitVec 5) := [0x09, 0x0B, 0x0C, 0x0D, 0x10, 0x11, 0x12]

/-- R104, first clause: `w[7:5]` is zero. -/
def CmdFields.lowReservedZero (f : CmdFields) : Bool := f.rsv7to5 = 0

/-- R104, second clause: `w[31:10]` is zero. -/
def CmdFields.highReservedZero (f : CmdFields) : Bool := f.rsv31to10 = 0

/-- R104, third clause: `w[4:0]` is an opcode of R102. -/
def CmdFields.opcodeKnown (f : CmdFields) : Bool :=
  f.op ∈ ordOpcodes ∨ f.op ∈ accOpcodes ∨ f.op ∈ plainOpcodes

/-- R104, fourth clause: `ORD` is 1 only where the opcode allows it. -/
def CmdFields.ordLegal (f : CmdFields) : Bool := f.ord = true → f.op ∈ ordOpcodes

/-- R104, fifth clause: `ACC` is 1 only where the opcode allows it. -/
def CmdFields.accLegal (f : CmdFields) : Bool := f.acc = true → f.op ∈ accOpcodes

/-- A command word with these fields is legal: it breaks no clause of R104. -/
def CmdFields.wf (f : CmdFields) : Bool :=
  f.lowReservedZero && f.highReservedZero && f.opcodeKnown && f.ordLegal && f.accLegal

/-- The fields each command is written with (R102, with `ORD` and `ACC` as its suffix says, R107). -/
def Instr.fields : Instr → CmdFields
  | .setbit => ⟨0x01, 0, false, false, 0⟩
  | .setbitL => ⟨0x01, 0, true, false, 0⟩
  | .clrbit => ⟨0x02, 0, false, false, 0⟩
  | .clrbitL => ⟨0x02, 0, true, false, 0⟩
  | .defbit => ⟨0x03, 0, false, false, 0⟩
  | .defbitL => ⟨0x03, 0, true, false, 0⟩
  | .getbit => ⟨0x04, 0, false, false, 0⟩
  | .getbitL => ⟨0x04, 0, true, false, 0⟩
  | .setnib => ⟨0x05, 0, false, false, 0⟩
  | .setnibL => ⟨0x05, 0, true, false, 0⟩
  | .getnib => ⟨0x06, 0, false, false, 0⟩
  | .getnibL => ⟨0x06, 0, true, false, 0⟩
  | .mdec => ⟨0x08, 0, false, false, 0⟩
  | .mdecA => ⟨0x08, 0, false, true, 0⟩
  | .menc => ⟨0x09, 0, false, false, 0⟩
  | .fdec => ⟨0x0A, 0, false, false, 0⟩
  | .fdecA => ⟨0x0A, 0, false, true, 0⟩
  | .fenc => ⟨0x0B, 0, false, false, 0⟩
  | .crc8 => ⟨0x0C, 0, false, false, 0⟩
  | .crcchk => ⟨0x0D, 0, false, false, 0⟩
  | .rxappend => ⟨0x10, 0, false, false, 0⟩
  | .rxpoll => ⟨0x11, 0, false, false, 0⟩
  | .rxget => ⟨0x12, 0, false, false, 0⟩

/-- A well-formed instruction: its fields are those of a legal word. -/
def Instr.wf (i : Instr) : Bool := i.fields.wf

/-- Why a word is no command, one name for each clause of R104. -/
inductive DecodeError where
  /-- `w[7:5]` is not zero -/
  | lowReserved
  /-- `w[31:10]` is not zero -/
  | highReserved
  /-- `w[4:0]` is a reserved opcode (R105) -/
  | opcode
  /-- `ORD` = 1 on a command that does not allow it -/
  | ordNotAllowed
  /-- `ACC` = 1 on a command that does not allow it -/
  | accNotAllowed
deriving DecidableEq, Repr

end Sys2Proof
end

