-- ==== Sys2Proof/Decode.lean ====
section
/-! DEFINITION. The decoder of command words (R100-R106), total, rejecting by name, and after it the encoder: the
23 words of R108. A command word is moved whole over the host bus (R81), so there is no byte order to decide. -/

namespace Sys2Proof

/-- The form of a command that takes `ORD` and not `ACC`: `a` is the plain row, `b` the `.L` row (R102). -/
def orderedForm (ord acc : Bool) (a b : Instr) : Except DecodeError Instr :=
  if acc then .error .accNotAllowed else .ok (if ord then b else a)

/-- The form of a command that takes `ACC` and not `ORD`: `a` is the plain row, `b` the `.A` row (R102). -/
def accumForm (ord acc : Bool) (a b : Instr) : Except DecodeError Instr :=
  if ord then .error .ordNotAllowed else .ok (if acc then b else a)

/-- The form of a command that takes neither modifier (R102). -/
def plainForm (ord acc : Bool) (a : Instr) : Except DecodeError Instr :=
  if ord then .error .ordNotAllowed else if acc then .error .accNotAllowed else .ok a

/-- The opcode map of R102; every other `OP` value is reserved (R105). -/
def decodeOp (op : Nat) (ord acc : Bool) : Except DecodeError Instr :=
  match op with
  | 0x01 => orderedForm ord acc .setbit .setbitL
  | 0x02 => orderedForm ord acc .clrbit .clrbitL
  | 0x03 => orderedForm ord acc .defbit .defbitL
  | 0x04 => orderedForm ord acc .getbit .getbitL
  | 0x05 => orderedForm ord acc .setnib .setnibL
  | 0x06 => orderedForm ord acc .getnib .getnibL
  | 0x08 => accumForm ord acc .mdec .mdecA
  | 0x09 => plainForm ord acc .menc
  | 0x0A => accumForm ord acc .fdec .fdecA
  | 0x0B => plainForm ord acc .fenc
  | 0x0C => plainForm ord acc .crc8
  | 0x0D => plainForm ord acc .crcchk
  | 0x10 => plainForm ord acc .rxappend
  | 0x11 => plainForm ord acc .rxpoll
  | 0x12 => plainForm ord acc .rxget
  | _ => .error .opcode

/-- Decode a word written to `CMD` (R100, R104). -/
def decodeWord (w : Word) : Except DecodeError Instr :=
  if w.extractLsb' 5 3 ≠ 0 then .error .lowReserved
  else if w.extractLsb' 10 22 ≠ 0 then .error .highReserved
  else decodeOp (w.extractLsb' 0 5).toNat (w.getLsbD 8) (w.getLsbD 9)

/-- The command word of each instruction, from the table of R108. -/
def encode : Instr → Word
  | .setbit => 0x00000001
  | .setbitL => 0x00000101
  | .clrbit => 0x00000002
  | .clrbitL => 0x00000102
  | .defbit => 0x00000003
  | .defbitL => 0x00000103
  | .getbit => 0x00000004
  | .getbitL => 0x00000104
  | .setnib => 0x00000005
  | .setnibL => 0x00000105
  | .getnib => 0x00000006
  | .getnibL => 0x00000106
  | .mdec => 0x00000008
  | .mdecA => 0x00000208
  | .menc => 0x00000009
  | .fdec => 0x0000000A
  | .fdecA => 0x0000020A
  | .fenc => 0x0000000B
  | .crc8 => 0x0000000C
  | .crcchk => 0x0000000D
  | .rxappend => 0x00000010
  | .rxpoll => 0x00000011
  | .rxget => 0x00000012

/-- The word an instruction of the opcode table is: its `nbits` bits `w`, every bit above them zero; none where the number
does not fit a command word, which is exactly 32 bits (R106). -/
def tableWord (nbits w : Nat) : Option Word :=
  if nbits ≤ 32 ∧ w < 2 ^ nbits then some (BitVec.ofNat 32 w) else none

/-- What the decoder reads from an opcode-table row's bits. -/
def decodeTableWord (nbits w : Nat) : Option Instr :=
  match tableWord nbits w with
  | none => none
  | some word =>
    match decodeWord word with
    | .ok i => some i
    | .error _ => none

end Sys2Proof
end

