-- ==== Sys2Proof/Machine/State.lean ====
section
/-! DEFINITION. The state of the block (10_state.md), the host's side of its bus (R6, R7, R74), the names of its errors,
outcomes and events, and the state after reset (R291). State is plain data. -/

namespace Sys2Proof.Machine

/-- The command-error code of `STATUS.CERR` (R35, R261). Codes 4-7 are "never produced" and have no constructor. -/
inductive CmdError where
  /-- 0: the command completed -/
  | ok
  /-- 1: `ILLEGAL`, the word written to `CMD` is illegal (R104) -/
  | illegal
  /-- 2: `RANGE`, a byte the command would touch is outside WRAM (R262) -/
  | range
  /-- 3: `BADLEN`, CRCCHK with `ARG2` = 0 (R205) -/
  | badLen
deriving DecidableEq, Repr

/-- The result of the last decode attempt, `STATUS.OUTCOME` (R39). -/
inductive RxOutcome where
  /-- 0: no decode has run since reset -/
  | none
  /-- 1: the last decode delivered a validated frame -/
  | ok
  /-- 2: first-stage Manchester errors -/
  | man1
  /-- 3: first-stage framing marker errors -/
  | frm1
  /-- 4: length class `"11"` -/
  | lclass
  /-- 5: extra-byte Manchester errors -/
  | man2
  /-- 6: extra-byte framing marker errors -/
  | frm2
  /-- 7: checksum mismatch -/
  | crc
deriving DecidableEq, Repr

/-- An event of the radio-request output (R52). -/
inductive RadioEvent where
  /-- `REARM_RX`: flush the radio's receive buffer and re-arm reception -/
  | rearmRx
deriving DecidableEq, Repr

/-- The width of a host access (R74, R75). -/
inductive AccessWidth where
  | byte
  | half
  | word
deriving DecidableEq, Repr

/-- One event at the block's inputs (R7): a host access at a window offset (R74; `R32`/`R8`/`W32`/`W8` of R107), or the
reset input (R290). A byte write takes bits 7:0 of its data
(DESIGN CHOICE, log entry 9). -/
inductive BusEvent where
  | read (width : AccessWidth) (off : Nat)
  | write (width : AccessWidth) (off : Nat) (data : Word)
  | reset
deriving DecidableEq, Repr

/-- The data a host read returned. -/
inductive BusReply where
  | word (v : Word)
  | byte (v : Byte)
deriving DecidableEq, Repr

/-- The place of the window a legal host access names (R74). -/
inductive Location where
  /-- the CSR region: the register at byte offset `off`, or a reserved offset (R30, R44) -/
  | csr (off : Nat)
  /-- `WRAM[a]` -/
  | wram (a : Nat)
deriving DecidableEq, Repr

/-- What `Decode(RXBUF)` returns (R230): a discard with its outcome code, or a validated frame of `n` bytes padded with
zeros to `MAX_FRAME_BYTES`. -/
inductive DecodeResult where
  | discard (oc : RxOutcome)
  | frame (f : Vector Byte Config.maxFrameBytes) (n : Nat)
deriving DecidableEq, Repr

/-- Why the machine stops with a fault. The block has no trap, no fault and no stop of its own: a command error is a
value in `STATUS.CERR` after which "the block goes on taking commands" (R260, R271). So there is no constructor, nobody
raises one, and that is safe: a step never faults, by type. -/
inductive Fault where
deriving DecidableEq, Repr

/-- Why a step is refused. All but `notModelled` are the host accesses that are "not a meaning-bearing access of the
block: a model refuses it" (R75). -/
inductive Refusal where
  /-- an instruction without a meaning in this model; raised by no arm of `exec`; safe -/
  | notModelled (mnemonic : String)
  /-- a byte or half-word access to a CSR (R75); raised by the bus, in `locate`; safe -/
  | csrWidth
  /-- a word access at an offset that is no multiple of 4 in the CSR region (R75, R83); raised by `locate`; safe -/
  | csrMisaligned
  /-- a word or half-word access to WRAM (R75); raised by `locate`; safe -/
  | wramWidth
  /-- an access at window offset 0x200 or above, which is not part of the block (R74, R75); raised by `locate`; safe -/
  | outsideWindow
deriving DecidableEq, Repr

/-- WRAM as the bytes written since reset, strictly rising in address; a byte not listed has been written by nobody
since reset (R71). -/
abbrev Memory := List Host.Cell

/-- Addresses strictly rise from `lo` on. -/
def Memory.risingFrom (lo : Nat) : Memory → Bool
  | [] => true
  | (a, _) :: rest => lo ≤ a && Memory.risingFrom (a + 1) rest

/-- The canonical form: addresses strictly rising and all inside WRAM (R70). (An unlisted address has no value of its own
in the list, so no entry can equal what it reads as.) -/
def Memory.wf (m : Memory) : Bool :=
  Memory.risingFrom 0 m && m.all (fun c => c.1 < Config.wramBytes)

/-- The machine: the block's registers and internal state, then three fields of the model's own. -/
structure State where
  /-- `CMD`, the last command word written (R31) -/
  cmd : Word
  /-- `ARG0`, source or base byte address (R32) -/
  arg0 : Word
  /-- `ARG1`, destination byte address (R32) -/
  arg1 : Word
  /-- `ARG2`, length, bit index or nibble index (R32) -/
  arg2 : Word
  /-- `ARG3`, offset or value (R32) -/
  arg3 : Word
  /-- `RESULT` (R33) -/
  result : Word
  /-- `ERRCNT[15:0]` (R34) -/
  errcnt : BitVec Config.errcntBits
  /-- `STATUS.CERR` (R36) -/
  cerr : CmdError
  /-- `STATUS.RAW_READY` (R37) -/
  rawReady : Bool
  /-- `STATUS.PKT_READY` (R38) -/
  pktReady : Bool
  /-- `STATUS.OUTCOME` (R39) -/
  outcome : RxOutcome
  /-- `CURSOR[5:0]` (R42) -/
  cursor : BitVec 6
  /-- `NOW`, `TIME_BITS` wide (R8, R40) -/
  now : BitVec Config.timeBits
  /-- `LASTACT`, `TIME_BITS` wide (R8, R41) -/
  lastact : BitVec Config.timeBits
  /-- `LASTLEN[3:0]` (R43) -/
  lastlen : BitVec 4
  /-- `RXBUF`, the receive accumulation buffer (R46) -/
  rxbuf : Vector Byte Config.rawBlockBytes
  /-- `LAST_FRAME`, the last validated raw frame (R47) -/
  lastFrame : Vector Byte Config.maxFrameBytes
  /-- `WRAM` (R70), as the bytes written since reset -/
  wram : Memory
  /-- `RADIO_EVENTS`, the record of the radio-request output, oldest first (R52) -/
  radioEvents : List RadioEvent
  /-- MODEL'S OWN: how many resets there have been; it draws fresh WRAM contents for each (R71, log entry 1) -/
  resets : Nat
  /-- MODEL'S OWN: the host accesses and resets still to come, next first (R6, R85, log entry 2) -/
  pending : List BusEvent
  /-- MODEL'S OWN: what the host's reads have returned, oldest first (R85, log entry 2) -/
  replies : List BusReply
deriving DecidableEq, Repr

/-- The state after reset (R291). `RXBUF` is zero: DESIGN CHOICE, R46 leaves it open (log entry 3); the last three fields are the
model's own. -/
def State.reset : State where
  cmd := 0
  arg0 := 0
  arg1 := 0
  arg2 := 0
  arg3 := 0
  result := 0
  errcnt := 0
  cerr := .ok
  rawReady := false
  pktReady := false
  outcome := .none
  cursor := 0
  now := 0
  lastact := 0
  lastlen := 0
  rxbuf := Vector.replicate Config.rawBlockBytes 0
  lastFrame := Vector.replicate Config.maxFrameBytes 0
  wram := []
  radioEvents := []
  resets := 0
  pending := []
  replies := []

end Sys2Proof.Machine
end

