-- ==== Sys2Proof/Machine/Ops.lean ====
section
/-! DEFINITION. The named operations over WRAM, bit streams and registers that every command's meaning is written with:
bytes, bits and nibbles (R72, R77, R78), streams (R79), the two line codes (R162, R182), the CRC (R203), and the end of a command: its
completion (R109 step 5) and the command error (R260), which is what this block has for an exception (R271: no trap, and so no
return from one). -/

namespace Sys2Proof.Machine

/-! ### WRAM bytes -/

/-- The byte written at `a` since reset, if any. -/
def Memory.get? : Memory → Nat → Option Byte
  | [], _ => none
  | (b, v) :: rest, a => if b = a then some v else Memory.get? rest a

/-- Write a byte, keeping the addresses strictly rising. -/
def Memory.set : Memory → Nat → Byte → Memory
  | [], a, v => [(a, v)]
  | (b, u) :: rest, a, v =>
    if a < b then (a, v) :: (b, u) :: rest
    else if a = b then (a, v) :: rest
    else (b, u) :: Memory.set rest a v

/-- `WRAM[a]`: the byte last written there, or the free draw it has held since reset (R71). -/
def State.byte (s : State) (a : Nat) : Byte :=
  (s.wram.get? a).getD (Config.wramAtReset s.resets a)

/-- `WRAM[a] <- v`. -/
def State.setByte (s : State) (a : Nat) (v : Byte) : State :=
  { s with wram := s.wram.set a v }

/-- `MemRead(a, n)` (R72). -/
def State.readBytes (s : State) (a n : Nat) : List Byte :=
  (List.range n).map fun i => s.byte (a + i)

/-- `MemWrite(a, n, v)` for an `n`-byte list `v` (R72). -/
def State.writeBytes (s : State) (a : Nat) : List Byte → State
  | [] => s
  | v :: rest => State.writeBytes (s.setByte a v) (a + 1) rest

/-! ### Bits and nibbles of a byte array (R77, R78) -/

/-- The value bit that stream bit `i` is within its byte (R77). -/
def bitPlace (ord : BitOrder) (i : Nat) : Nat :=
  match ord with
  | .msb => 7 - i % 8
  | .lsb => i % 8

/-- A byte with value bit `k` set to `v` and its other seven bits unchanged. -/
def putBit (x : Byte) (k : Nat) (v : Bool) : Byte :=
  if v then x ||| (1#8 <<< k) else x &&& ~~~(1#8 <<< k)

/-- `BitRead(B, base, i, ord)` (R77). -/
def bitRead (B : Nat → Byte) (base i : Nat) (ord : BitOrder) : Bool :=
  (B (base + i / 8)).getLsbD (bitPlace ord i)

/-- `BitWrite(WRAM, base, i, ord, v)` (R77). -/
def State.bitWrite (s : State) (base i : Nat) (ord : BitOrder) (v : Bool) : State :=
  s.setByte (base + i / 8) (putBit (s.byte (base + i / 8)) (bitPlace ord i) v)

/-- Nibble `k` is the high half of its byte (the table of R78). -/
def nibbleHigh (ord : BitOrder) (k : Nat) : Bool :=
  match ord with
  | .msb => k % 2 = 0
  | .lsb => k % 2 = 1

/-- The nibble of a byte, not bit-reversed (R78). -/
def getNibble (x : Byte) (high : Bool) : BitVec 4 :=
  if high then x.extractLsb' 4 4 else x.extractLsb' 0 4

/-- A byte with one nibble replaced and the other unchanged (R144). -/
def putNibble (x : Byte) (high : Bool) (v : BitVec 4) : Byte :=
  if high then v ++ x.extractLsb' 0 4 else x.extractLsb' 4 4 ++ v

/-! ### Streams -/

/-- Stream bits `start .. start + n - 1` of the array at `base`. -/
def readBits (B : Nat → Byte) (base start n : Nat) (ord : BitOrder) : List Bool :=
  (List.range n).map fun j => bitRead B base (start + j) ord

/-- Write a list of bits at stream bits `start, start + 1, ...`; a `none` leaves its bit as it is. The list was read before the
first write, so a command's output is a function of the state before it (R13). -/
def State.writeBits (s : State) (base start : Nat) (ord : BitOrder) : List (Option Bool) → State
  | [] => s
  | none :: rest => State.writeBits s base (start + 1) ord rest
  | some v :: rest => State.writeBits (s.bitWrite base start ord v) base (start + 1) ord rest

/-- The byte of eight stream bits, in stream order (R77). -/
def packByte (ord : BitOrder) (b0 b1 b2 b3 b4 b5 b6 b7 : Bool) : Byte :=
  match ord with
  | .msb => BitVec.ofNat 8 (b0.toNat * 128 + b1.toNat * 64 + b2.toNat * 32 + b3.toNat * 16
      + b4.toNat * 8 + b5.toNat * 4 + b6.toNat * 2 + b7.toNat)
  | .lsb => BitVec.ofNat 8 (b0.toNat + b1.toNat * 2 + b2.toNat * 4 + b3.toNat * 8
      + b4.toNat * 16 + b5.toNat * 32 + b6.toNat * 64 + b7.toNat * 128)

/-- The bytes of a stream of whole bytes. -/
def packBytes (ord : BitOrder) : List Bool → List Byte
  | b0 :: b1 :: b2 :: b3 :: b4 :: b5 :: b6 :: b7 :: rest =>
    packByte ord b0 b1 b2 b3 b4 b5 b6 b7 :: packBytes ord rest
  | _ => []

/-! ### The Manchester line code (R160-R162) -/

/-- The pair table of R162: `"10"` is 1, `"01"` is 0, and an invalid pair gives no bit. -/
def manPair (a b : Bool) : Option Bool :=
  match a, b with
  | true, false => some true
  | false, true => some false
  | _, _ => none

/-- The decoded bits of a physical stream, a `none` for each invalid pair. -/
def manDecode : List Bool → List (Option Bool)
  | a :: b :: rest => manPair a b :: manDecode rest
  | _ => []

/-- The number of invalid pairs (R165). -/
def manErrors (bits : List (Option Bool)) : Nat := bits.countP Option.isNone

/-- The physical stream of a logical one: `"10"` for 1, `"01"` for 0 (R162). -/
def manEncode : List Bool → List Bool
  | v :: rest => v :: (!v) :: manEncode rest
  | [] => []

/-- `ManDec` (R160, R230): `len` bits decoded from pair offset `off` of the physical `msb` stream at `base`. -/
def manDec (B : Nat → Byte) (base len off : Nat) : List (Option Bool) :=
  manDecode (readBits B base (2 * off) (2 * len) .msb)

/-! ### The Legrand nibble framing (R180-R182) -/

/-- The number of groups whose marker is not 1 (R180). -/
def frmErrors : List Bool → Nat
  | m :: _ :: _ :: _ :: _ :: rest => (if m then 0 else 1) + frmErrors rest
  | _ => 0

/-- The payload bits of a framed stream, copied whatever the marker (R180). -/
def frmPayload : List Bool → List Bool
  | _ :: p0 :: p1 :: p2 :: p3 :: rest => p0 :: p1 :: p2 :: p3 :: frmPayload rest
  | _ => []

/-- The framed stream of a payload stream: a marker 1 before every four bits and one trailing marker 1 (R181). -/
def frmEncode : List Bool → List Bool
  | p0 :: p1 :: p2 :: p3 :: rest => true :: p0 :: p1 :: p2 :: p3 :: frmEncode rest
  | _ => [true]

/-- The payload bytes of a framed stream; the payload side has the ordering `FRAME_PAYLOAD_ORDER` (R79, R185). -/
def frmBytes (bits : List Bool) : List Byte :=
  packBytes Config.framePayloadOrder (frmPayload bits)

/-! ### The checksum (R203) -/

/-- One bit of the CRC register's loop: `x0` is the least significant bit of what is left of the byte. -/
def crcBit (c : Byte) (x0 : Bool) : Byte :=
  if c.getLsbD 0 ^^ x0 then (c >>> 1) ^^^ Config.crcPoly else c >>> 1

/-- `n` bits of a byte, least significant first. -/
def crcBits : Nat → Byte → Byte → Byte
  | 0, c, _ => c
  | n + 1, c, x => crcBits n (crcBit c (x.getLsbD 0)) (x >>> 1)

/-- `Crc8(list)`. -/
def crc8 (d : List Byte) : Byte := d.foldl (crcBits 8) Config.crcInit

/-! ### The end of a command -/

/-- R109 step 5: the command completes, with `STATUS.CERR <- 0`. -/
def complete (s : State) : Host.Outcome State Fault Refusal := .next { s with cerr := .ok }

/-- `raise CmdError(code)` (R260): the command ends at once and the only state it changes is `STATUS.CERR`. The block goes on
taking commands. This is what taking an exception is on this block: it has no trap entry, saved state or vector (R271). -/
def raiseCmdError (code : CmdError) (s : State) : Host.Outcome State Fault Refusal :=
  .next { s with cerr := code }

/-- Steps 3 to 5 of R109: where the touched bytes are in range the operation is done and the command completes, else it
raises `RANGE`. -/
def whenInRange (ok : Bool) (s : State) (op : State) : Host.Outcome State Fault Refusal :=
  if ok then complete op else raiseCmdError .range s

end Sys2Proof.Machine
end

