-- ==== Sys2Proof/Machine/Operands.lean ====
section
/-! DEFINITION. The operands of the commands (R103): unsigned 32-bit numbers, taken as naturals so that no sum wraps (R10,
R72), the two narrow value fields, and the range check over the touched bytes (R73, R262). -/

namespace Sys2Proof.Machine

/-- `ARG0` as a number: source or base byte address. -/
abbrev State.a0 (s : State) : Nat := s.arg0.toNat

/-- `ARG1` as a number: destination byte address. -/
abbrev State.a1 (s : State) : Nat := s.arg1.toNat

/-- `ARG2` as a number: length, bit index, nibble index or byte count. -/
abbrev State.a2 (s : State) : Nat := s.arg2.toNat

/-- `ARG3` as a number: offset. -/
abbrev State.a3 (s : State) : Nat := s.arg3.toNat

/-- `ARG3[0]`, the value of DEFBIT (R103, R142). -/
def State.bitValue (s : State) : Bool := s.arg3.getLsbD 0

/-- `ARG3[3:0]`, the value of SETNIB (R103, R144). -/
def State.nibbleValue (s : State) : BitVec 4 := s.arg3.extractLsb' 0 4

/-- An address is in range (R72). -/
def inRange (a : Nat) : Bool := a < Config.wramBytes

/-- The `n` bytes from `a` on are all in range; an empty set of bytes always is (R73). -/
def bytesInRange (a n : Nat) : Bool := n = 0 || inRange (a + n - 1)

/-- The bytes that hold stream bits `start .. start + n - 1` of `base` are all in range; an empty set always is (R73). -/
def bitsInRange (base start n : Nat) : Bool := n = 0 || inRange (base + (start + n - 1) / 8)

/-- The byte of bit `ARG2` of the array at `ARG0` (R140). -/
abbrev State.bitByte (s : State) : Nat := s.a0 + s.a2 / 8

/-- The byte of nibble `ARG2` of the array at `ARG0` (R144). -/
abbrev State.nibbleByte (s : State) : Nat := s.a0 + s.a2 / 2

end Sys2Proof.Machine
end

