-- ==== Sys2Proof/Machine/Flags.lean ====
section
/-! DEFINITION. Every status and count the commands compute: the codes and the word of `STATUS` (R35, R39, R261), the error
count (R34), and `RESULT` (R33). -/

namespace Sys2Proof.Machine

/-- The code of a command error in `STATUS[2:0]` (R261). -/
def CmdError.code : CmdError → BitVec 3
  | .ok => 0
  | .illegal => 1
  | .range => 2
  | .badLen => 3

/-- The code of a decode outcome in `STATUS[14:12]` (R39). -/
def RxOutcome.code : RxOutcome → BitVec 3
  | .none => 0
  | .ok => 1
  | .man1 => 2
  | .frm1 => 3
  | .lclass => 4
  | .man2 => 5
  | .frm2 => 6
  | .crc => 7

/-- The `STATUS` word: `OUTCOME` in 14:12, `PKT_READY` in 9, `RAW_READY` in 8, `CERR` in 2:0, every other bit 0 (R35). -/
def State.status (s : State) : Word :=
  0#17 ++ s.outcome.code ++ 0#2 ++ BitVec.ofBool s.pktReady ++ BitVec.ofBool s.rawReady ++ 0#5 ++ s.cerr.code

/-- `ERRCNT` after a count `err`: it replaces the old count with `ACC` = 0, and is added to it modulo 2^`ERRCNT_BITS` with `ACC` = 1
(R34). -/
def State.countErrors (s : State) (acc : Bool) (err : Nat) : State :=
  { s with errcnt :=
      if acc then s.errcnt + BitVec.ofNat Config.errcntBits err else BitVec.ofNat Config.errcntBits err }

/-- `RESULT <- zext_32(v)` (R33). -/
def State.setResult (s : State) (v : Word) : State := { s with result := v }

end Sys2Proof.Machine
end

