-- ==== Sys2Proof/Machine/BitBuffer.lean ====
section
/-! DEFINITION. The BitBuffer commands (40_bitbuffer.md): SETBIT, CLRBIT, DEFBIT, GETBIT, SETNIB and GETNIB, each in both
orderings. -/

namespace Sys2Proof.Machine

/-- Write `v` to bit `ARG2` of the array at `ARG0` (R140-R142). -/
def writeBitCmd (ord : BitOrder) (v : Bool) (s : State) : Host.Outcome State Fault Refusal :=
  whenInRange (inRange s.bitByte) s (s.bitWrite s.a0 s.a2 ord v)

/-- Read bit `ARG2` of the array at `ARG0` into `RESULT` (R143). -/
def readBitCmd (ord : BitOrder) (s : State) : Host.Outcome State Fault Refusal :=
  whenInRange (inRange s.bitByte) s
    (s.setResult ((BitVec.ofBool (bitRead s.byte s.a0 s.a2 ord)).setWidth 32))

/-- Write `ARG3[3:0]` to nibble `ARG2` of the array at `ARG0` (R144). -/
def writeNibbleCmd (ord : BitOrder) (s : State) : Host.Outcome State Fault Refusal :=
  whenInRange (inRange s.nibbleByte) s
    (s.setByte s.nibbleByte (putNibble (s.byte s.nibbleByte) (nibbleHigh ord s.a2) s.nibbleValue))

/-- Read nibble `ARG2` of the array at `ARG0` into `RESULT` (R145). -/
def readNibbleCmd (ord : BitOrder) (s : State) : Host.Outcome State Fault Refusal :=
  whenInRange (inRange s.nibbleByte) s
    (s.setResult ((getNibble (s.byte s.nibbleByte) (nibbleHigh ord s.a2)).setWidth 32))

/-- SETBIT (R140), `ORD` = 0. -/
def execSetbit (s : State) : Host.Outcome State Fault Refusal := writeBitCmd .msb true s

/-- SETBIT.L (R140), `ORD` = 1. -/
def execSetbitL (s : State) : Host.Outcome State Fault Refusal := writeBitCmd .lsb true s

/-- CLRBIT (R141), `ORD` = 0. -/
def execClrbit (s : State) : Host.Outcome State Fault Refusal := writeBitCmd .msb false s

/-- CLRBIT.L (R141), `ORD` = 1. -/
def execClrbitL (s : State) : Host.Outcome State Fault Refusal := writeBitCmd .lsb false s

/-- DEFBIT (R142), `ORD` = 0; the value is `ARG3[0]`. -/
def execDefbit (s : State) : Host.Outcome State Fault Refusal := writeBitCmd .msb s.bitValue s

/-- DEFBIT.L (R142), `ORD` = 1. -/
def execDefbitL (s : State) : Host.Outcome State Fault Refusal := writeBitCmd .lsb s.bitValue s

/-- GETBIT (R143), `ORD` = 0. -/
def execGetbit (s : State) : Host.Outcome State Fault Refusal := readBitCmd .msb s

/-- GETBIT.L (R143), `ORD` = 1. -/
def execGetbitL (s : State) : Host.Outcome State Fault Refusal := readBitCmd .lsb s

/-- SETNIB (R144), `ORD` = 0. -/
def execSetnib (s : State) : Host.Outcome State Fault Refusal := writeNibbleCmd .msb s

/-- SETNIB.L (R144), `ORD` = 1. -/
def execSetnibL (s : State) : Host.Outcome State Fault Refusal := writeNibbleCmd .lsb s

/-- GETNIB (R145), `ORD` = 0. -/
def execGetnib (s : State) : Host.Outcome State Fault Refusal := readNibbleCmd .msb s

/-- GETNIB.L (R145), `ORD` = 1. -/
def execGetnibL (s : State) : Host.Outcome State Fault Refusal := readNibbleCmd .lsb s

end Sys2Proof.Machine
end

