-- ==== Sys2Proof/Machine/Checksum.lean ====
section
/-! DEFINITION. The checksum commands (43_checksum.md): CRC8 and CRCCHK. -/

namespace Sys2Proof.Machine

/-- CRC8 (R204): the CRC of the `ARG2` bytes at `ARG0`. -/
def execCrc8 (s : State) : Host.Outcome State Fault Refusal :=
  whenInRange (bytesInRange s.a0 s.a2) s (s.setResult ((crc8 (s.readBytes s.a0 s.a2)).setWidth 32))

/-- CRCCHK (R205): 1 if the last of the `ARG2` bytes at `ARG0` is the CRC of those before it. A length of 0 raises `BADLEN`, checked
before the range (R263). -/
def execCrcchk (s : State) : Host.Outcome State Fault Refusal :=
  if s.a2 = 0 then raiseCmdError .badLen s
  else
    whenInRange (bytesInRange s.a0 s.a2) s
      (s.setResult (if crc8 (s.readBytes s.a0 (s.a2 - 1)) = s.byte (s.a0 + s.a2 - 1) then 1 else 0))

end Sys2Proof.Machine
end

