-- ==== Sys2Proof/Machine/Framing.lean ====
section
/-! DEFINITION. The Legrand nibble-framing commands (42_frame.md): FDEC, FDEC.A and FENC. The framed side is an `msb` stream,
the payload side has the ordering `FRAME_PAYLOAD_ORDER` (R79, R185). -/

namespace Sys2Proof.Machine

/-- FDEC with its `ACC` flag (R180): `ARG2` bytes from the framed stream at `ARG0`, to the bytes at `ARG1`. The trailing marker is
not read. -/
def frmDecodeCmd (acc : Bool) (s : State) : Host.Outcome State Fault Refusal :=
  let bits := readBits s.byte s.a0 0 (10 * s.a2) .msb
  whenInRange (bitsInRange s.a0 0 (10 * s.a2) && bytesInRange s.a1 s.a2) s
    ((s.writeBytes s.a1 (frmBytes bits)).countErrors acc (frmErrors bits))

/-- FDEC (R180), `ACC` = 0. -/
def execFdec (s : State) : Host.Outcome State Fault Refusal := frmDecodeCmd false s

/-- FDEC.A (R180), `ACC` = 1. -/
def execFdecA (s : State) : Host.Outcome State Fault Refusal := frmDecodeCmd true s

/-- FENC (R181): the `ARG2` bytes at `ARG0` as a framed stream of `10 * ARG2 + 1` bits at `ARG1`; it always touches the byte of its
trailing marker. -/
def execFenc (s : State) : Host.Outcome State Fault Refusal :=
  whenInRange (bytesInRange s.a0 s.a2 && bitsInRange s.a1 0 (10 * s.a2 + 1)) s
    (s.writeBits s.a1 0 .msb
      ((frmEncode (readBits s.byte s.a0 0 (8 * s.a2) Config.framePayloadOrder)).map some))

end Sys2Proof.Machine
end

