-- ==== Sys2Proof/Machine/Manchester.lean ====
section
/-! DEFINITION. The Manchester commands (41_manchester.md): MDEC, MDEC.A and MENC. Both streams of both are `msb` streams
(R79). -/

namespace Sys2Proof.Machine

/-- MDEC with its `ACC` flag (R160): `ARG2` bits decoded from pair offset `ARG3` of the stream at `ARG0`, to the stream at
`ARG1`; the bit of an invalid pair is not written. -/
def manDecodeCmd (acc : Bool) (s : State) : Host.Outcome State Fault Refusal :=
  let bits := manDec s.byte s.a0 s.a2 s.a3
  whenInRange (bitsInRange s.a0 (2 * s.a3) (2 * s.a2) && bitsInRange s.a1 0 s.a2) s
    ((s.writeBits s.a1 0 .msb bits).countErrors acc (manErrors bits))

/-- MDEC (R160), `ACC` = 0. -/
def execMdec (s : State) : Host.Outcome State Fault Refusal := manDecodeCmd false s

/-- MDEC.A (R160), `ACC` = 1. -/
def execMdecA (s : State) : Host.Outcome State Fault Refusal := manDecodeCmd true s

/-- MENC (R161): the `ARG2` bits of the stream at `ARG0`, each as two physical bits, from physical bit `ARG3` of the stream
at `ARG1` on. -/
def execMenc (s : State) : Host.Outcome State Fault Refusal :=
  whenInRange (bitsInRange s.a0 0 s.a2 && bitsInRange s.a1 s.a3 (2 * s.a2)) s
    (s.writeBits s.a1 s.a3 .msb ((manEncode (readBits s.byte s.a0 0 s.a2 .msb)).map some))

end Sys2Proof.Machine
end

