-- ==== Sys2Proof/Machine/Receive.lean ====
section
/-! DEFINITION. The receive pipeline (44_rx_pipeline.md): RXAPPEND, RXPOLL with the decode pipeline and the resync timeout,
and RXGET. -/

namespace Sys2Proof.Machine

/-! ### Accumulation -/

/-- The bytes RXAPPEND accepts: `min(ARG2, RAW_BLOCK_BYTES - CURSOR)` (R222). -/
def State.accepted (s : State) : Nat := min s.a2 (Config.rawBlockBytes - s.cursor.toNat)

/-- `RXBUF` after `k` bytes of WRAM from `ARG0` are copied to `RXBUF[CURSOR ..]` (R222, R224). -/
def State.appended (s : State) (k : Nat) : Vector Byte Config.rawBlockBytes :=
  Vector.ofFn fun j : Fin Config.rawBlockBytes =>
    if s.cursor.toNat ≤ j.val ∧ j.val < s.cursor.toNat + k then s.byte (s.a0 + (j.val - s.cursor.toNat))
    else s.rxbuf[j]

/-- `emit REARM_RX` (R52). -/
def State.emitRearm (s : State) : State := { s with radioEvents := s.radioEvents ++ [.rearmRx] }

/-- The copy and the advance of the cursor, with the time of the last raw-byte arrival (R222); the cursor is given as a number,
since it may stand at `RAW_BLOCK_BYTES` until the end of the command (R48). -/
def State.appendBytes (s : State) (k : Nat) : State :=
  { s with
    rxbuf := s.appended k
    cursor := BitVec.ofNat 6 (s.cursor.toNat + k)
    lastact := if k > 0 then s.now else s.lastact }

/-- The completion of a raw block: `RawReady`, the cursor back to 0, one radio request (R222). -/
def State.completeBlock (s : State) : State :=
  ({ s with rawReady := true, cursor := 0 } : State).emitRearm

/-- RXAPPEND (R222, R223). -/
def execRxappend (s : State) : Host.Outcome State Fault Refusal :=
  let k := s.accepted
  let t := s.appendBytes k
  whenInRange (bytesInRange s.a0 k) s
    ((if t.cursor.toNat = Config.rawBlockBytes then t.completeBlock else t).setResult (BitVec.ofNat 32 k))

/-! ### The decode pipeline -/

/-- `RXBUF` as a byte array to read (R80). -/
def bufByte (buf : Vector Byte Config.rawBlockBytes) (a : Nat) : Byte := buf.toList.getD a 0

/-- Manchester-decoded bits in a scratch that starts at zero: the bit of an invalid pair stays 0 (R51, R230). -/
def scratchBits (bits : List (Option Bool)) : List Bool := bits.map fun b => b.getD false

/-- The `MAX_FRAME_BYTES`-byte frame buffer `F`, zero where nothing is written (R51, R230). -/
def frameOf (bytes : List Byte) : Vector Byte Config.maxFrameBytes := Vector.ofFn fun i : Fin Config.maxFrameBytes => bytes.getD i.val 0

/-- Step 7: the checksum over all bytes but the last, compared with the last (R230). -/
def checksumStage (bytes : List Byte) : DecodeResult :=
  if crc8 bytes.dropLast = bytes.getLastD 0 then .frame (frameOf bytes) bytes.length else .discard .crc

/-- Step 6: the `x` extra bytes from pair offset `S2_OFFSET`, after the first `S1_FRAME_BYTES` bytes `first`; Manchester errors come before
framing errors (R230, R231). -/
def extraStage (buf : Vector Byte Config.rawBlockBytes) (first : List Byte) (x : Nat) : DecodeResult :=
  let raw := manDec (bufByte buf) 0 (Config.s2BitsPerByte * x) Config.s2Offset
  if manErrors raw ≠ 0 then .discard .man2
  else if frmErrors (scratchBits raw) ≠ 0 then .discard .frm2
  else checksumStage (first ++ frmBytes (scratchBits raw))

/-- Step 5: the length class, bits 7:6 of frame byte 4, and the extra bytes it asks for (R201, R230). -/
def lengthStage (buf : Vector Byte Config.rawBlockBytes) (first : List Byte) : DecodeResult :=
  match Config.extraBytes ((first.getD 4 0).extractLsb' 6 2) with
  | none => .discard .lclass
  | some 0 => checksumStage first
  | some x => extraStage buf first x

/-- `Decode(RXBUF)` (R230): each stage that fails ends it, in the source's order (R266). -/
def decodeBlock (buf : Vector Byte Config.rawBlockBytes) : DecodeResult :=
  let raw := manDec (bufByte buf) 0 Config.s1Bits Config.s1Offset
  if manErrors raw ≠ 0 then .discard .man1
  else
    let bits := (scratchBits raw).take (10 * Config.s1FrameBytes)
    if frmErrors bits ≠ 0 then .discard .frm1
    else lengthStage buf (frmBytes bits)

/-! ### Poll -/

/-- The resync is due: a partial block, and more than `RESYNC_MS` since the last byte, modulo 2^`TIME_BITS` (R236, R237). -/
def State.resyncDue (s : State) : Bool :=
  s.cursor.toNat ≠ 0 && (s.now - s.lastact).toNat > Config.resyncMs

/-- The resync timeout (R236). -/
def State.resync (s : State) : State :=
  if s.resyncDue then ({ s with cursor := 0 } : State).emitRearm else s

/-- What a decode of `RXBUF` leaves: the block is consumed whatever its outcome (R226), a frame is delivered (R232), a discard
leaves the last frame untouched (R233). -/
def State.deliver (s : State) (r : DecodeResult) : State :=
  match r with
  | .discard oc => { s with rawReady := false, outcome := oc }
  | .frame f n =>
    { s with rawReady := false, outcome := .ok, lastFrame := f, lastlen := BitVec.ofNat 4 n, pktReady := true }

/-- Steps 3 to 8: at most one decode a poll, and only of a complete block (R226). -/
def State.decodeStep (s : State) : State :=
  if s.rawReady then s.deliver (decodeBlock s.rxbuf) else s

/-- RXPOLL (R226, R227): the resync first, then the decode; the result is `PKT_READY` after both. -/
def execRxpoll (s : State) : Host.Outcome State Fault Refusal :=
  let t := s.resync.decodeStep
  complete (t.setResult ((BitVec.ofBool t.pktReady).setWidth 32))

/-! ### Get -/

/-- RXGET (R240): the `MAX_FRAME_BYTES` bytes of `LAST_FRAME` to WRAM at `ARG1`; the ready flag is consumed, the frame is kept. -/
def execRxget (s : State) : Host.Outcome State Fault Refusal :=
  whenInRange (bytesInRange s.a1 Config.maxFrameBytes) s
    { (s.writeBytes s.a1 s.lastFrame.toList).setResult (s.lastlen.setWidth 32) with pktReady := false }

end Sys2Proof.Machine
end

