-- ==== Sys2Proof/Machine/Dispatch.lean ====
section
/-! DEFINITION. The one match over the commands: each arm is one call of its meaning (R109 steps 2 to 5). -/

namespace Sys2Proof.Machine

def exec (i : Instr) (s : State) : Host.Outcome State Fault Refusal :=
  match i with
  | .setbit => Sys2Proof.Machine.execSetbit s
  | .setbitL => Sys2Proof.Machine.execSetbitL s
  | .clrbit => Sys2Proof.Machine.execClrbit s
  | .clrbitL => Sys2Proof.Machine.execClrbitL s
  | .defbit => Sys2Proof.Machine.execDefbit s
  | .defbitL => Sys2Proof.Machine.execDefbitL s
  | .getbit => Sys2Proof.Machine.execGetbit s
  | .getbitL => Sys2Proof.Machine.execGetbitL s
  | .setnib => Sys2Proof.Machine.execSetnib s
  | .setnibL => Sys2Proof.Machine.execSetnibL s
  | .getnib => Sys2Proof.Machine.execGetnib s
  | .getnibL => Sys2Proof.Machine.execGetnibL s
  | .mdec => Sys2Proof.Machine.execMdec s
  | .mdecA => Sys2Proof.Machine.execMdecA s
  | .menc => Sys2Proof.Machine.execMenc s
  | .fdec => Sys2Proof.Machine.execFdec s
  | .fdecA => Sys2Proof.Machine.execFdecA s
  | .fenc => Sys2Proof.Machine.execFenc s
  | .crc8 => Sys2Proof.Machine.execCrc8 s
  | .crcchk => Sys2Proof.Machine.execCrcchk s
  | .rxappend => Sys2Proof.Machine.execRxappend s
  | .rxpoll => Sys2Proof.Machine.execRxpoll s
  | .rxget => Sys2Proof.Machine.execRxget s

end Sys2Proof.Machine
end

