-- ==== Sys2Proof/Machine/Bus.lean ====
section
/-! DEFINITION. The host's side of the block: where an access goes (R74, R75), what a read returns and a write does (R30, R44,
R76), the write of `CMD` that runs a command (R31, R109), and the reset input (R290). One event is one step (R6, R85). -/

namespace Sys2Proof.Machine

/-- The window offset of a platform address, for a block whose window the platform placed at `base` (`BLOCK_BASE`, R74); none for an
address that is not in the window. The model's accesses are given as offsets (log entry 4). -/
def windowOffset (base addr : Nat) : Option Nat :=
  if base ≤ addr ∧ addr < base + Config.windowBytes then some (addr - base) else none

/-- Where a host access goes: the table of R74, and the refusals of R75 for every other access. -/
def locate (width : AccessWidth) (off : Nat) : Except Refusal Location :=
  if off < Config.wramWindow then
    if width ≠ .word then .error .csrWidth
    else if off % 4 ≠ 0 then .error .csrMisaligned
    else .ok (.csr off)
  else if off < Config.windowBytes then
    if width ≠ .byte then .error .wramWidth
    else .ok (.wram (off - Config.wramWindow))
  else .error .outsideWindow

/-- The value of the CSR at an offset (R30); a reserved offset reads 0 (R44), and so does every bit marked "read 0". -/
def State.csr (s : State) (off : Nat) : Word :=
  match off with
  | 0x00 => s.cmd
  | 0x04 => s.arg0
  | 0x08 => s.arg1
  | 0x0C => s.arg2
  | 0x10 => s.arg3
  | 0x14 => s.result
  | 0x18 => s.errcnt.setWidth 32
  | 0x1C => s.status
  | 0x20 => s.cursor.setWidth 32
  | 0x24 => s.now.setWidth 32
  | 0x28 => s.lastact.setWidth 32
  | 0x2C => s.lastlen.setWidth 32
  | _ => 0

/-- The data of a read (R76: a read never changes the block). -/
def State.readLocation (s : State) : Location → BusReply
  | .csr off => .word (s.csr off)
  | .wram a => .byte (s.byte a)

/-- The command that a stored word runs (R31, R109): an illegal word raises `ILLEGAL` (step 1), a legal one is executed (steps 2
to 5). -/
def runCommand (w : Word) (s : State) : Host.Outcome State Fault Refusal :=
  match decodeWord w with
  | .ok i => exec i s
  | .error _ => raiseCmdError .illegal s

/-- A host write of a CSR (R30): `CMD` stores the word and then runs it (R31); `ARG0`-`ARG3` and `NOW` store it (R32, R40); a write
to an RO register or a reserved offset changes nothing (R44, R76). -/
def State.writeCsr (s : State) (off : Nat) (data : Word) : Host.Outcome State Fault Refusal :=
  match off with
  | 0x00 => runCommand data { s with cmd := data }
  | 0x04 => .next { s with arg0 := data }
  | 0x08 => .next { s with arg1 := data }
  | 0x0C => .next { s with arg2 := data }
  | 0x10 => .next { s with arg3 := data }
  | 0x24 => .next { s with now := data.setWidth Config.timeBits }
  | _ => .next s

/-- A host write of a legal location. -/
def State.writeLocation (s : State) (l : Location) (data : Word) : Host.Outcome State Fault Refusal :=
  match l with
  | .csr off => s.writeCsr off data
  | .wram a => .next (s.setByte a (data.extractLsb' 0 8))

/-- The reset input (R290, R291): every piece of the block's state takes its reset value, and WRAM a new free draw. What the host
has still to do and what it has read are not the block's and stay (DEDUCED, log entry 8). -/
def State.resetEvent (s : State) : State :=
  { State.reset with resets := s.resets + 1, pending := s.pending, replies := s.replies }

/-- One event at the block's inputs. -/
def busEvent (e : BusEvent) (s : State) : Host.Outcome State Fault Refusal :=
  match e with
  | .reset => .next s.resetEvent
  | .read width off =>
    match locate width off with
    | .error r => .refused r
    | .ok l => .next { s with replies := s.replies ++ [s.readLocation l] }
  | .write width off data =>
    match locate width off with
    | .error r => .refused r
    | .ok l => s.writeLocation l data

/-- The next event is taken and performed; with none to come the block is idle and keeps its state (R278). -/
def nextEvent (s : State) : Host.Outcome State Fault Refusal :=
  match s.pending with
  | [] => .next s
  | e :: rest => busEvent e { s with pending := rest }

/-- The host write that gives the block an instruction of the opcode table (R2, R31). -/
def commandWrite (w : Nat) : BusEvent := .write .word 0x00 (BitVec.ofNat 32 w)

end Sys2Proof.Machine
end

