-- ==== Sys2Proof/Machine/Step.lean ====
section
/-! DEFINITION. The step: one host access, or one reset, is one step (R6). The block fetches nothing (R88): a command is the value of
the host's write to `CMD`, so the place an instruction is stored for the next step is the host's next access. -/

namespace Sys2Proof.Machine

/-- One step of the machine. -/
def step (s : State) : Host.Outcome State Fault Refusal := nextEvent s

/-- The state in which the host's next access writes this instruction's word to `CMD`, whatever it had still to do after it. -/
def State.withFetchWord (s : State) (nbits w : Nat) : State :=
  { s with pending := commandWrite (w % 2 ^ nbits) :: s.pending }

end Sys2Proof.Machine
end

