-- ==== Sys2Proof/Safety.lean ====
section
/-! DEFINITION. The terms the statements use, each written from the spec's own words, at the defaults of R8 as the spec's rules are
(R221, log entry 7), and not from the meanings: single stream bits,
the bytes a command touches (R73), a validated frame and where it lies in a raw block (R234), and the invariant of the block's
state. -/

namespace Sys2Proof.Machine

/-- Stream bit `i` of the WRAM array at `base` (R77): value bit `7 - i mod 8` of its byte under `msb`, `i mod 8` under `lsb`. -/
def State.bit (s : State) (base i : Nat) (ord : BitOrder) : Bool :=
  (s.byte (base + i / 8)).getLsbD (if ord = .msb then 7 - i % 8 else i % 8)

end Sys2Proof.Machine

namespace Sys2Proof

open Machine

/-- The bytes a command reads, column "Bytes read" of R73. -/
def Instr.reads (i : Instr) (s : State) (a : Nat) : Prop :=
  match i with
  | .setbit | .setbitL | .clrbit | .clrbitL | .defbit | .defbitL | .getbit | .getbitL => a = s.a0 + s.a2 / 8
  | .setnib | .setnibL | .getnib | .getnibL => a = s.a0 + s.a2 / 2
  | .mdec | .mdecA => ∃ p, 2 * s.a3 ≤ p ∧ p < 2 * s.a3 + 2 * s.a2 ∧ a = s.a0 + p / 8
  | .menc => ∃ p, p < s.a2 ∧ a = s.a0 + p / 8
  | .fdec | .fdecA => ∃ p, p < 10 * s.a2 ∧ a = s.a0 + p / 8
  | .fenc | .crc8 | .crcchk => ∃ j, j < s.a2 ∧ a = s.a0 + j
  | .rxappend => ∃ j, j < min s.a2 (60 - s.cursor.toNat) ∧ a = s.a0 + j
  | .rxpoll | .rxget => False

/-- The bytes a command writes, column "Bytes written" of R73. -/
def Instr.writes (i : Instr) (s : State) (a : Nat) : Prop :=
  match i with
  | .setbit | .setbitL | .clrbit | .clrbitL | .defbit | .defbitL => a = s.a0 + s.a2 / 8
  | .setnib | .setnibL => a = s.a0 + s.a2 / 2
  | .mdec | .mdecA => ∃ p, p < s.a2 ∧ a = s.a1 + p / 8
  | .menc => ∃ p, s.a3 ≤ p ∧ p < s.a3 + 2 * s.a2 ∧ a = s.a1 + p / 8
  | .fdec | .fdecA => ∃ j, j < s.a2 ∧ a = s.a1 + j
  | .fenc => ∃ p, p ≤ 10 * s.a2 ∧ a = s.a1 + p / 8
  | .rxget => ∃ j, j ≤ 8 ∧ a = s.a1 + j
  | .getbit | .getbitL | .getnib | .getnibL | .crc8 | .crcchk | .rxappend | .rxpoll => False

/-- Every byte the command touches is in range (R72, R73). -/
def Instr.inRange (i : Instr) (s : State) : Prop :=
  ∀ a, i.reads s a ∨ i.writes s a → a < Config.wramBytes

end Sys2Proof

namespace Sys2Proof.Machine

/-- The state after the host has written the four operand registers (R32, R108). -/
def State.withArgs (s : State) (a0 a1 a2 a3 : Word) : State :=
  { s with arg0 := a0, arg1 := a1, arg2 := a2, arg3 := a3 }

/-- Physical bit `p` of a raw block, read as one `msb` stream (R80). -/
def airBit (buf : Vector Byte 60) (p : Nat) : Bool := (buf.toList.getD (p / 8) 0).getLsbD (7 - p % 8)

/-- Decoded bit `t` of the frame in a raw block: the first bit of its Manchester pair, at physical bit `4 + 2t` (R162, R234). -/
def frameBit (buf : Vector Byte 60) (t : Nat) : Bool := airBit buf (4 + 2 * t)

/-- The pair of decoded bit `t`, at physical bits `4 + 2t` and `5 + 2t`, is `"00"` or `"11"` (R162, R234). -/
def badPair (buf : Vector Byte 60) (t : Nat) : Bool := airBit buf (4 + 2 * t) == airBit buf (5 + 2 * t)

/-- Bit `q` of frame byte `b` as the block carries it: framed bits `10b + 1 .. 10b + 4` are its low nibble and `10b + 6 .. 10b + 9` its
high one, least significant bit first (R180, R234). -/
def carriedBit (buf : Vector Byte 60) (b q : Nat) : Bool := frameBit buf (10 * b + q + (if q < 4 then 1 else 2))

/-- Bit `t` of the framed stream of a raw frame (R182): a marker 1 at every fifth bit, else the payload bit. -/
def framedBit (f : Vector Byte 9) (t : Nat) : Bool :=
  if t % 5 = 0 then true
  else (f.toList.getD (t / 10) 0).getLsbD (t % 10 - (if t % 10 < 5 then 1 else 2))

/-- The raw block carries the framed stream of the first `n` bytes of `f`, Manchester-coded from physical bit 4 on (R234). -/
def Carries (buf : Vector Byte 60) (f : Vector Byte 9) (n : Nat) : Prop :=
  ∀ t, t < 10 * n → badPair buf t = false ∧ frameBit buf t = framedBit f t

/-- The number of extra bytes of a length class, bits 7:6 of frame byte 4 (R201). -/
def ClassExtra (bit7 bit6 : Bool) (x : Nat) : Prop :=
  (bit7 = false ∧ bit6 = false ∧ x = 0) ∨ (bit7 = false ∧ bit6 = true ∧ x = 1) ∨ (bit7 = true ∧ bit6 = false ∧ x = 3)

/-- What a validated raw frame of `n` bytes in a nine-byte buffer is (R200, R201, R47): its length is the one its length class asks
for, its last byte is the checksum of those before it, and the buffer is zero after it. -/
structure ValidFrame (f : Vector Byte 9) (n : Nat) : Prop where
  length : ∃ x, ClassExtra (f[4].getLsbD 7) (f[4].getLsbD 6) x ∧ n = 6 + x
  checksum : crc8 (f.toList.take (n - 1)) = f.toList.getD (n - 1) 0
  padded : ∀ j : Fin 9, n ≤ j.val → f[j] = 0

/-- Two states that differ at most in the bytes of `RXBUF` that RXAPPEND has not written into the current block: none, while a block
waits to be decoded (R46). -/
def State.AgreeButUnwritten (s s' : State) : Prop :=
  s' = { s with rxbuf := s'.rxbuf } ∧ (s.rawReady = true → s'.rxbuf = s.rxbuf) ∧
  ∀ j : Fin 60, j.val < s.cursor.toNat → s'.rxbuf[j] = s.rxbuf[j]

/-- The invariant of every reachable state of the block. -/
structure State.Inv (s : State) : Prop where
  /-- WRAM is in its canonical form, inside 0..255 (R70) -/
  wram : s.wram.wf = true
  /-- the cursor is in 0..59 (R48) -/
  cursor : s.cursor.toNat < 60
  /-- `LASTLEN` is 0 with a zero frame, or the length of the validated frame in `LAST_FRAME` (R43, R47) -/
  frame : (s.lastlen = 0 ∧ s.lastFrame = Vector.replicate 9 0) ∨ ValidFrame s.lastFrame s.lastlen.toNat
  /-- a packet is ready only when a frame has been validated (R38, R232) -/
  ready : s.pktReady = true → s.lastlen ≠ 0
  /-- before any decode there is no frame (R39, R43) -/
  fresh : s.outcome = .none → s.lastlen = 0

end Sys2Proof.Machine
end

