-- ==== Sys2Proof/Certificates/Slice0/Obligations.lean ====
section
/-! DEFINITION. The statements for the provers, from the numbered rules of the spec. A next state is written as an equation, or as a
record update of the state before, which is the statement's frame: every field it does not name is unchanged. -/

open Sys2Proof Sys2Proof.Machine

/-! ### Reset, the bus and the step

Wherever a statement speaks of `pending` or `replies`, the queue of the host's accesses and the record of what its reads return, that form is
the model's choice (DESIGN CHOICE, log entry 2); the rules it cites say what the access does to the block. -/

/-- R291, R71: every register reads 0 after reset, the flags are clear, the frame is zero, no radio request is recorded, and a byte of
WRAM holds the free draw of this reset, about which nothing is known. -/
def Obligations.ResetLeavesTheStatedValues : Prop :=
  (∀ off, off < 0x100 → State.reset.csr off = 0) ∧ State.reset.cerr = .ok ∧ State.reset.rawReady = false ∧
  State.reset.pktReady = false ∧ State.reset.outcome = .none ∧ State.reset.lastFrame = Vector.replicate 9 0 ∧
  State.reset.radioEvents = [] ∧
  ∀ a, a < 256 → State.reset.byte a = Config.wramAtReset State.reset.resets a

/-- R290, R291: the reset input puts every piece of the block's state into its reset value at once; WRAM draws again (R71), and of `RXBUF`,
whose reset value the spec leaves open, nothing is said. That the host's queue and what it has read stay is the model's choice (log
entries 2 and 8). -/
def Obligations.ResetInputResetsTheBlock : Prop :=
  ∀ s rest, s.pending = .reset :: rest →
    ∃ t, step s = .next t ∧
      t = { State.reset with rxbuf := t.rxbuf, resets := t.resets, pending := rest, replies := s.replies } ∧
      ∀ a, a < 256 → t.byte a = Config.wramAtReset t.resets a

/-- R278: between host accesses the block is idle and keeps all its state. That such a moment is a step of the model, with an empty queue,
is the model's choice (log entry 2). -/
def Obligations.IdleBlockKeepsItsState : Prop :=
  ∀ s, s.pending = [] → step s = .next s

/-- R31, R109: a host write of a word that decodes to an instruction stores the word in `CMD`, takes the write off the host's queue,
and is then exactly that instruction. The queue is the model's choice (log entry 2). -/
def Obligations.StepRunsTheDecodedCommand : Prop :=
  ∀ s rest w i, s.pending = .write .word 0x00 w :: rest → decodeWord w = .ok i → i.wf = true →
    step s = exec i { s with pending := rest, cmd := w }

/-- R104: a write of a word that breaks a clause of the legality rule performs no operation and ends with `ILLEGAL`; `CMD` still holds
the word (R31). The queue is the model's choice (log entry 2). -/
def Obligations.IllegalWordChangesOnlyCerr : Prop :=
  ∀ s rest w, s.pending = .write .word 0x00 w :: rest → (CmdFields.ofWord w).wf = false →
    step s = .next { s with pending := rest, cmd := w, cerr := .illegal }

/-- R31: a read of `CMD` after a write of it returns the word written, whether or not it encodes a command. The queue and the
record of replies are the model's choice (log entry 2). -/
def Obligations.CmdReadsBackTheWordWritten : Prop :=
  ∀ s rest w, s.pending = .write .word 0x00 w :: .read .word 0x00 :: rest →
    ∃ t u, step s = .next t ∧ step t = .next u ∧ u = { t with pending := rest, replies := s.replies ++ [.word w] }

/-- R30, R76, R44: a word read of the CSR region returns the register at its offset, a reserved offset returns 0, a byte read of the WRAM
region returns the byte, and the read changes nothing of the block. The queue and the record of replies are the model's choice (log
entry 2). -/
def Obligations.HostReadReturnsTheLocation : Prop :=
  (∀ s rest off, s.pending = .read .word off :: rest → off < 0x100 → off % 4 = 0 →
    ∃ v, step s = .next { s with pending := rest, replies := s.replies ++ [.word v] } ∧
      (off = 0x00 → v = s.cmd) ∧ (off = 0x04 → v = s.arg0) ∧ (off = 0x08 → v = s.arg1) ∧ (off = 0x0C → v = s.arg2) ∧
      (off = 0x10 → v = s.arg3) ∧ (off = 0x14 → v = s.result) ∧ (off = 0x18 → v.toNat = s.errcnt.toNat) ∧
      (off = 0x1C → v = s.status) ∧ (off = 0x20 → v.toNat = s.cursor.toNat) ∧ (off = 0x24 → v = s.now) ∧
      (off = 0x28 → v = s.lastact) ∧ (off = 0x2C → v.toNat = s.lastlen.toNat) ∧ (0x30 ≤ off → v = 0)) ∧
  (∀ s rest a, s.pending = .read .byte (0x100 + a) :: rest → a < 256 →
    step s = .next { s with pending := rest, replies := s.replies ++ [.byte (s.byte a)] })

/-- R35, R39, R261: the fields of `STATUS`, with the codes of the command errors and of the outcomes; every other bit reads 0. -/
def Obligations.StatusWordHoldsItsFields : Prop :=
  ∀ s : State,
    (s.status.extractLsb' 0 3).toNat = (match s.cerr with | .ok => 0 | .illegal => 1 | .range => 2 | .badLen => 3) ∧
    s.status.extractLsb' 3 5 = 0 ∧ s.status.getLsbD 8 = s.rawReady ∧ s.status.getLsbD 9 = s.pktReady ∧
    s.status.extractLsb' 10 2 = 0 ∧
    (s.status.extractLsb' 12 3).toNat = (match s.outcome with
      | .none => 0 | .ok => 1 | .man1 => 2 | .frm1 => 3 | .lclass => 4 | .man2 => 5 | .frm2 => 6 | .crc => 7) ∧
    s.status.extractLsb' 15 17 = 0

/-- R30, R76: a word write of `ARG0`-`ARG3` or `NOW` stores the word and changes nothing else; a write of an RO register or a reserved
offset changes nothing. The queue is the model's choice (log entry 2). -/
def Obligations.HostWriteOfACsrStoresOrIsIgnored : Prop :=
  ∀ s rest off v, s.pending = .write .word off v :: rest → off < 0x100 → off % 4 = 0 → off ≠ 0 →
    step s = .next { s with
      pending := rest
      arg0 := if off = 0x04 then v else s.arg0
      arg1 := if off = 0x08 then v else s.arg1
      arg2 := if off = 0x0C then v else s.arg2
      arg3 := if off = 0x10 then v else s.arg3
      now := if off = 0x24 then v else s.now }

/-- R74, R76: a byte write of the WRAM region stores its byte at that address and changes no other byte and no register. That the byte is
bits 7:0 of the data the access carries is the model's choice (DESIGN CHOICE, log entry 9: the spec gives an 8-bit write and no data lines),
and so is the host's queue of accesses (log entry 2). -/
def Obligations.HostWriteOfAWramByteStoresIt : Prop :=
  ∀ s rest a v, s.pending = .write .byte (0x100 + a) v :: rest → a < 256 →
    ∃ t, step s = .next t ∧ t = { s with pending := rest, wram := t.wram } ∧
      ∀ b, t.byte b = if b = a then v.extractLsb' 0 8 else s.byte b

/-- R74, R75: a step is refused exactly where the host's next access is of the wrong width, misaligned in the CSR region, or outside the
window. The queue is the model's choice (log entry 2), and that no state follows a refused access is DEDUCED (log entry 5). -/
def Obligations.OnlyMeaninglessAccessesAreRefused : Prop :=
  ∀ s, (∃ r, step s = .refused r) ↔
    ∃ width off rest, (s.pending = .read width off :: rest ∨ ∃ v, s.pending = .write width off v :: rest) ∧
      ((off < 0x100 ∧ (width ≠ .word ∨ off % 4 ≠ 0)) ∨ (0x100 ≤ off ∧ off < 0x200 ∧ width ≠ .byte) ∨ 0x200 ≤ off)

/-- R74: the platform's addresses of a block at `base` are the 512 from `base` on. -/
def Obligations.WindowIs512BytesFromItsBase : Prop :=
  ∀ base addr off, windowOffset base addr = some off ↔ off < 512 ∧ addr = base + off

/-! ### Encoding -/

/-- R108, R104: a word decodes to an instruction exactly when it is that instruction's word; so decode of encode is the identity, on every
instruction, and the 23 words are the only legal ones. -/
def Obligations.ExactlyTheEncodedWordsDecode : Prop :=
  ∀ w i, decodeWord w = .ok i ↔ w = encode i

/-- R104: a word decodes exactly when its fields break no clause of the legality rule; every instruction's word has its fields. -/
def Obligations.DecodableIffTheFieldsAreLegal : Prop :=
  (∀ w, (∃ i, decodeWord w = .ok i) ↔ (CmdFields.ofWord w).wf = true) ∧
  ∀ i, CmdFields.ofWord (encode i) = i.fields ∧ i.wf = true

/-- R108: one word of each family, written out, decodes to its command. -/
def Obligations.WrittenOutWordsDecode : Prop :=
  decodeWord 0x00000101#32 = .ok .setbitL ∧ decodeWord 0x00000006#32 = .ok .getnib ∧ decodeWord 0x00000208#32 = .ok .mdecA ∧
  decodeWord 0x0000000B#32 = .ok .fenc ∧ decodeWord 0x0000000D#32 = .ok .crcchk ∧ decodeWord 0x00000011#32 = .ok .rxpoll

/-- R105: the reserved opcodes, in particular the all-zero word, are illegal. -/
def Obligations.ReservedOpcodesAreIllegal : Prop :=
  ∀ w : Word, w.toNat % 32 ∈ [0x00, 0x07, 0x0E, 0x0F] ∨ 0x13 ≤ w.toNat % 32 → ∀ i, decodeWord w ≠ .ok i

/-! ### BitBuffer -/

/-- R140-R142: SETBIT, CLRBIT and DEFBIT set one bit of one byte, leave its other seven bits and every other byte, and change nothing
else. -/
def Obligations.BitWritesSetOneBit : Prop :=
  ∀ s i ord v, (i, ord, v) ∈ [(Instr.setbit, BitOrder.msb, true), (.setbitL, .lsb, true), (.clrbit, .msb, false),
      (.clrbitL, .lsb, false), (.defbit, .msb, s.arg3.getLsbD 0), (.defbitL, .lsb, s.arg3.getLsbD 0)] →
    s.arg0.toNat + s.arg2.toNat / 8 < 256 →
    ∃ t, exec i s = .next t ∧ t = { s with wram := t.wram, cerr := .ok } ∧
      ∀ a k, k < 8 → (t.byte a).getLsbD k =
        if a = s.arg0.toNat + s.arg2.toNat / 8 ∧
            k = (if ord = .msb then 7 - s.arg2.toNat % 8 else s.arg2.toNat % 8) then v
        else (s.byte a).getLsbD k

/-- R143: GETBIT gives the bit, as 0 or 1, and changes no byte. -/
def Obligations.GetbitReadsOneBit : Prop :=
  ∀ s i ord, (i, ord) ∈ [(Instr.getbit, BitOrder.msb), (.getbitL, .lsb)] → s.arg0.toNat + s.arg2.toNat / 8 < 256 →
    exec i s = .next { s with result := if s.bit s.arg0.toNat s.arg2.toNat ord then 1 else 0, cerr := .ok }

/-- R144: SETNIB writes the nibble `ARG3[3:0]` into the half that the table of R78 gives, not bit-reversed; the other half and every other
byte are unchanged. -/
def Obligations.SetnibWritesOneNibble : Prop :=
  ∀ s i ord, (i, ord) ∈ [(Instr.setnib, BitOrder.msb), (.setnibL, .lsb)] → s.arg0.toNat + s.arg2.toNat / 2 < 256 →
    ∃ t, exec i s = .next t ∧ t = { s with wram := t.wram, cerr := .ok } ∧
      (∀ a, a ≠ s.arg0.toNat + s.arg2.toNat / 2 → t.byte a = s.byte a) ∧
      (t.byte (s.arg0.toNat + s.arg2.toNat / 2)).toNat =
        if (ord = .msb ∧ s.arg2.toNat % 2 = 0) ∨ (ord = .lsb ∧ s.arg2.toNat % 2 = 1) then
          16 * (s.arg3.toNat % 16) + (s.byte (s.arg0.toNat + s.arg2.toNat / 2)).toNat % 16
        else
          16 * ((s.byte (s.arg0.toNat + s.arg2.toNat / 2)).toNat / 16) + s.arg3.toNat % 16

/-- R145: GETNIB gives the nibble of the half that the table of R78 gives, and changes no byte. -/
def Obligations.GetnibReadsOneNibble : Prop :=
  ∀ s i ord, (i, ord) ∈ [(Instr.getnib, BitOrder.msb), (.getnibL, .lsb)] → s.arg0.toNat + s.arg2.toNat / 2 < 256 →
    ∃ v : Word, exec i s = .next { s with result := v, cerr := .ok } ∧
      v.toNat =
        if (ord = .msb ∧ s.arg2.toNat % 2 = 0) ∨ (ord = .lsb ∧ s.arg2.toNat % 2 = 1) then
          (s.byte (s.arg0.toNat + s.arg2.toNat / 2)).toNat / 16
        else (s.byte (s.arg0.toNat + s.arg2.toNat / 2)).toNat % 16

/-- R146: GETNIB of nibble `k` is `8 b0 + 4 b1 + 2 b2 + b3` under `msb` and `b0 + 2 b1 + 4 b2 + 8 b3` under `lsb`, where `bj` is GETBIT of bit
`4k + j` under the same ordering. -/
def Obligations.NibblesAgreeWithBits : Prop :=
  ∀ s : State, s.arg0.toNat + s.arg2.toNat / 2 < 256 →
    ∃ b c : Nat → State, ∃ t u,
      (∀ j, j < 4 →
        exec .getbit (s.withArgs s.arg0 s.arg1 (BitVec.ofNat 32 (4 * s.arg2.toNat + j)) s.arg3) = .next (b j) ∧
        exec .getbitL (s.withArgs s.arg0 s.arg1 (BitVec.ofNat 32 (4 * s.arg2.toNat + j)) s.arg3) = .next (c j)) ∧
      exec .getnib s = .next t ∧ exec .getnibL s = .next u ∧
      t.result = 8 * (b 0).result + 4 * (b 1).result + 2 * (b 2).result + (b 3).result ∧
      u.result = (c 0).result + 2 * (c 1).result + 4 * (c 2).result + 8 * (c 3).result

/-! ### Manchester -/

/-- R160, R162, R165: MDEC writes the bit of every valid pair and leaves the bit of every invalid one and every bit outside the output; its
count is exactly the number of invalid pairs, and replaces `ERRCNT` or is added to it. Inputs are read before any output (R13). -/
def Obligations.MdecDecodesEveryPair : Prop :=
  ∀ s i acc, (i, acc) ∈ [(Instr.mdec, false), (.mdecA, true)] →
    (0 < s.arg2.toNat → s.arg0.toNat + (2 * s.arg3.toNat + 2 * s.arg2.toNat - 1) / 8 < 256 ∧
      s.arg1.toNat + (s.arg2.toNat - 1) / 8 < 256) →
    ∃ t, exec i s = .next t ∧ t = { s with wram := t.wram, errcnt := t.errcnt, cerr := .ok } ∧
      (∀ j, j < s.arg2.toNat → t.bit s.arg1.toNat j .msb =
        match s.bit s.arg0.toNat (2 * s.arg3.toNat + 2 * j) .msb, s.bit s.arg0.toNat (2 * s.arg3.toNat + 2 * j + 1) .msb with
        | true, false => true
        | false, true => false
        | _, _ => s.bit s.arg1.toNat j .msb) ∧
      (∀ a k, k < 8 → (∀ j, j < s.arg2.toNat → ¬ (a = s.arg1.toNat + j / 8 ∧ k = 7 - j % 8)) →
        (t.byte a).getLsbD k = (s.byte a).getLsbD k) ∧
      t.errcnt = (if acc then s.errcnt else 0) + BitVec.ofNat 16 ((List.range s.arg2.toNat).countP fun j =>
        s.bit s.arg0.toNat (2 * s.arg3.toNat + 2 * j) .msb == s.bit s.arg0.toNat (2 * s.arg3.toNat + 2 * j + 1) .msb)

/-- R161: MENC writes `"10"` for every 1 and `"01"` for every 0 from physical bit `ARG3` on, and changes no other bit and nothing else. -/
def Obligations.MencEncodesEveryBit : Prop :=
  ∀ s : State, (0 < s.arg2.toNat → s.arg0.toNat + (s.arg2.toNat - 1) / 8 < 256 ∧
      s.arg1.toNat + (s.arg3.toNat + 2 * s.arg2.toNat - 1) / 8 < 256) →
    ∃ t, exec .menc s = .next t ∧ t = { s with wram := t.wram, cerr := .ok } ∧
      (∀ j, j < s.arg2.toNat →
        t.bit s.arg1.toNat (s.arg3.toNat + 2 * j) .msb = s.bit s.arg0.toNat j .msb ∧
        t.bit s.arg1.toNat (s.arg3.toNat + 2 * j + 1) .msb = !s.bit s.arg0.toNat j .msb) ∧
      (∀ a k, k < 8 → (∀ p, s.arg3.toNat ≤ p → p < s.arg3.toNat + 2 * s.arg2.toNat →
          ¬ (a = s.arg1.toNat + p / 8 ∧ k = 7 - p % 8)) →
        (t.byte a).getLsbD k = (s.byte a).getLsbD k)

/-- R164, with R13: MENC at physical offset `2 off` and then MDEC at pair offset `off` give back the bits with no error, whatever
overlaps. -/
def Obligations.ManchesterRoundTrip : Prop :=
  ∀ (s : State) (dst off : Word), s.arg3.toNat = 2 * off.toNat →
    (0 < s.arg2.toNat → s.arg0.toNat + (s.arg2.toNat - 1) / 8 < 256 ∧
      s.arg1.toNat + (s.arg3.toNat + 2 * s.arg2.toNat - 1) / 8 < 256 ∧ dst.toNat + (s.arg2.toNat - 1) / 8 < 256) →
    ∃ t u, exec .menc s = .next t ∧ exec .mdec (t.withArgs s.arg1 dst s.arg2 off) = .next u ∧
      (∀ j, j < s.arg2.toNat → u.bit dst.toNat j .msb = s.bit s.arg0.toNat j .msb) ∧ u.errcnt = 0 ∧ u.cerr = .ok

/-! ### Framing -/

/-- R180: FDEC writes, for each byte, the two nibbles of its two groups, least significant bit first, whatever the markers; its count is
the number of group markers that are not 1. -/
def Obligations.FdecDecodesEveryGroup : Prop :=
  ∀ s i acc, (i, acc) ∈ [(Instr.fdec, false), (.fdecA, true)] →
    (0 < s.arg2.toNat → s.arg0.toNat + (10 * s.arg2.toNat - 1) / 8 < 256 ∧ s.arg1.toNat + s.arg2.toNat - 1 < 256) →
    ∃ t, exec i s = .next t ∧ t = { s with wram := t.wram, errcnt := t.errcnt, cerr := .ok } ∧
      (∀ b q, b < s.arg2.toNat → q < 4 →
        (t.byte (s.arg1.toNat + b)).getLsbD q = s.bit s.arg0.toNat (10 * b + 1 + q) .msb ∧
        (t.byte (s.arg1.toNat + b)).getLsbD (4 + q) = s.bit s.arg0.toNat (10 * b + 6 + q) .msb) ∧
      (∀ a, (∀ b, b < s.arg2.toNat → a ≠ s.arg1.toNat + b) → t.byte a = s.byte a) ∧
      t.errcnt = (if acc then s.errcnt else 0) + BitVec.ofNat 16 ((List.range (2 * s.arg2.toNat)).countP fun g =>
        !s.bit s.arg0.toNat (5 * g) .msb)

/-- R181, R182: FENC writes a marker 1 and four payload bits for every nibble and one trailing marker, `10 n + 1` bits, and changes no
other bit and nothing else; with `n = 0` it writes the trailing marker alone. -/
def Obligations.FencEncodesEveryNibble : Prop :=
  ∀ s : State, (0 < s.arg2.toNat → s.arg0.toNat + s.arg2.toNat - 1 < 256) → s.arg1.toNat + 10 * s.arg2.toNat / 8 < 256 →
    ∃ t, exec .fenc s = .next t ∧ t = { s with wram := t.wram, cerr := .ok } ∧
      (∀ g, g ≤ 2 * s.arg2.toNat → t.bit s.arg1.toNat (5 * g) .msb = true) ∧
      (∀ g q, g < 2 * s.arg2.toNat → q < 4 →
        t.bit s.arg1.toNat (5 * g + 1 + q) .msb = s.bit s.arg0.toNat (4 * g + q) .lsb) ∧
      (∀ a k, k < 8 → (∀ p, p ≤ 10 * s.arg2.toNat → ¬ (a = s.arg1.toNat + p / 8 ∧ k = 7 - p % 8)) →
        (t.byte a).getLsbD k = (s.byte a).getLsbD k)

/-- R183, with R13: FENC and then FDEC give back the bytes with no error, whatever overlaps. -/
def Obligations.FramingRoundTrip : Prop :=
  ∀ (s : State) (dst : Word), (0 < s.arg2.toNat → s.arg0.toNat + s.arg2.toNat - 1 < 256 ∧ dst.toNat + s.arg2.toNat - 1 < 256) →
    s.arg1.toNat + 10 * s.arg2.toNat / 8 < 256 →
    ∃ t u, exec .fenc s = .next t ∧ exec .fdec (t.withArgs s.arg1 dst s.arg2 s.arg3) = .next u ∧
      (∀ b, b < s.arg2.toNat → u.byte (dst.toNat + b) = s.byte (s.arg0.toNat + b)) ∧ u.errcnt = 0 ∧ u.cerr = .ok

/-- R184: clear any set of group markers of an encoded stream (and do what you like with the trailing marker): FDEC counts exactly as many
errors as markers cleared, and decodes the same bytes. -/
def Obligations.ClearedMarkersAreCounted : Prop :=
  ∀ (s t u : State) (dst : Word) (groups : List Nat),
    exec .fenc s = .next t → t.cerr = .ok → groups.Nodup → (∀ g ∈ groups, g < 2 * s.arg2.toNat) →
    u.arg0 = s.arg1 → u.arg1 = dst → u.arg2 = s.arg2 → (0 < s.arg2.toNat → dst.toNat + s.arg2.toNat - 1 < 256) →
    (∀ p, p < 10 * s.arg2.toNat →
      u.bit s.arg1.toNat p .msb = (t.bit s.arg1.toNat p .msb && !(decide (p % 5 = 0) && groups.contains (p / 5)))) →
    ∃ v, exec .fdec u = .next v ∧ v.errcnt = BitVec.ofNat 16 groups.length ∧ v.cerr = .ok ∧
      ∀ b, b < s.arg2.toNat → v.byte (dst.toNat + b) = s.byte (s.arg0.toNat + b)

/-! ### Checksum -/

/-- R203: the values the rule gives: the single bytes 0x00 to 0x0F, and the string "123456789". -/
def Obligations.CrcGivesTheStatedValues : Prop :=
  ((List.range 16).map fun x => (crc8 [BitVec.ofNat 8 x]).toNat) =
      [0x00, 0x5E, 0xBC, 0xE2, 0x61, 0x3F, 0xDD, 0x83, 0xC2, 0x9C, 0x7E, 0x20, 0xA3, 0xFD, 0x1F, 0x41] ∧
    crc8 [0x31, 0x32, 0x33, 0x34, 0x35, 0x36, 0x37, 0x38, 0x39] = 0xA1

/-- R204: CRC8 gives the checksum of the bytes and changes nothing else; of no bytes it gives 0, wherever `ARG0` points. -/
def Obligations.Crc8ChecksumsTheBytes : Prop :=
  (∀ s : State, 0 < s.arg2.toNat → s.arg0.toNat + s.arg2.toNat - 1 < 256 →
    exec .crc8 s = .next { s with
      result := (crc8 ((List.range s.arg2.toNat).map fun j => s.byte (s.arg0.toNat + j))).setWidth 32, cerr := .ok }) ∧
  ∀ s : State, s.arg2 = 0 → exec .crc8 s = .next { s with result := 0, cerr := .ok }

/-- R205: CRCCHK compares the last byte with the checksum of those before it; a length of 0 is `BADLEN`, before any range check. -/
def Obligations.CrcchkComparesTheLastByte : Prop :=
  (∀ s : State, 0 < s.arg2.toNat → s.arg0.toNat + s.arg2.toNat - 1 < 256 →
    ∃ v : Word, exec .crcchk s = .next { s with result := v, cerr := .ok } ∧
      v = if crc8 ((List.range (s.arg2.toNat - 1)).map fun j => s.byte (s.arg0.toNat + j)) =
          s.byte (s.arg0.toNat + s.arg2.toNat - 1) then 1 else 0) ∧
  ∀ s : State, s.arg2 = 0 → exec .crcchk s = .next { s with cerr := .badLen }

/-- R206: the checksum depends on the order of the bytes, and a list followed by its checksum has checksum 0, so CRCCHK of a frame built with
CRC8 gives 1. -/
def Obligations.ChecksumResidueIsZero : Prop :=
  crc8 [0x01, 0x02] = 0x78 ∧ crc8 [0x02, 0x01] = 0xCF ∧ (∀ d, crc8 (d ++ [crc8 d]) = 0) ∧
  ∀ s t : State, s.arg0.toNat + s.arg2.toNat < 256 → exec .crc8 s = .next t →
    ∃ u, exec .crcchk ((t.setByte (s.arg0.toNat + s.arg2.toNat) (t.result.extractLsb' 0 8)).withArgs
        s.arg0 s.arg1 (s.arg2 + 1) s.arg3) = .next u ∧ u.result = 1 ∧ u.cerr = .ok

/-- R207: flipping one bit of a list of up to 64 bytes changes its checksum. -/
def Obligations.SingleBitErrorsAreDetected : Prop :=
  ∀ (d : List Byte) (j k : Nat), d.length ≤ 64 → j < d.length → k < 8 →
    crc8 (d.set j (d.getD j 0 ^^^ (1#8 <<< k))) ≠ crc8 d

/-! ### Receive -/

/-- R222, R223: RXAPPEND accepts `min(ARG2, 60 - CURSOR)` bytes, copies them to `RXBUF` at the cursor, advances it, records the time of a byte's
arrival, and at 60 bytes marks the block ready, takes the cursor back to 0 and emits one `REARM_RX`; nothing else changes. -/
def Obligations.RxappendAccumulates : Prop :=
  ∀ (s : State) (k : Nat), s.cursor.toNat < 60 → k = min s.arg2.toNat (60 - s.cursor.toNat) →
    (0 < k → s.arg0.toNat + k - 1 < 256) →
    ∃ t, exec .rxappend s = .next t ∧
      t = { s with rxbuf := t.rxbuf, cursor := t.cursor, lastact := t.lastact, rawReady := t.rawReady,
                   radioEvents := t.radioEvents, result := BitVec.ofNat 32 k, cerr := .ok } ∧
      (∀ j : Fin 60, t.rxbuf[j] = if s.cursor.toNat ≤ j.val ∧ j.val < s.cursor.toNat + k then
        s.byte (s.arg0.toNat + (j.val - s.cursor.toNat)) else s.rxbuf[j]) ∧
      t.lastact = (if 0 < k then s.now else s.lastact) ∧
      (if s.cursor.toNat + k = 60 then
        t.cursor = 0 ∧ t.rawReady = true ∧ t.radioEvents = s.radioEvents ++ [.rearmRx]
      else t.cursor.toNat = s.cursor.toNat + k ∧ t.rawReady = s.rawReady ∧ t.radioEvents = s.radioEvents)

/-- R224: bytes appended by two commands join without a gap: the state after them is the state after one command for both, but for `RESULT`
and the operands. -/
def Obligations.SplitAppendsJoin : Prop :=
  ∀ (s : State) (m n : Nat), s.cursor.toNat < 60 → s.cursor.toNat + m + n ≤ 60 → s.arg0.toNat + m + n ≤ 256 →
    s.arg2.toNat = m + n →
    ∃ t u v, exec .rxappend s = .next t ∧
      exec .rxappend (s.withArgs s.arg0 s.arg1 (BitVec.ofNat 32 m) s.arg3) = .next u ∧
      exec .rxappend (u.withArgs (BitVec.ofNat 32 (s.arg0.toNat + m)) s.arg1 (BitVec.ofNat 32 n) s.arg3) = .next v ∧
      v = { t with result := v.result, arg0 := v.arg0, arg2 := v.arg2 }

/-- R236, R237: a poll with a partial block and more than 600 ms since its last byte, modulo 2^32, takes the cursor to 0 and emits one
`REARM_RX`, and changes nothing else but what every poll writes. -/
def Obligations.ResyncResetsAPartialBlock : Prop :=
  ∀ s : State, s.rawReady = false → s.cursor ≠ 0 → (s.now.toNat + (2 ^ 32 - s.lastact.toNat)) % 2 ^ 32 > 600 →
    exec .rxpoll s = .next { s with cursor := 0, radioEvents := s.radioEvents ++ [.rearmRx],
                                    result := if s.pktReady then 1 else 0, cerr := .ok }

/-- R227, R237: with no block waiting and no resync due, a poll changes only `RESULT` and `CERR`; at 600 ms exactly, or with the cursor at 0, none
is due. -/
def Obligations.QuietPollOnlyReports : Prop :=
  ∀ s : State, s.rawReady = false → (s.cursor = 0 ∨ (s.now.toNat + (2 ^ 32 - s.lastact.toNat)) % 2 ^ 32 ≤ 600) →
    exec .rxpoll s = .next { s with result := if s.pktReady then 1 else 0, cerr := .ok }

/-- R226, R232, R233: a poll with a block waiting consumes it. A decode that delivers a frame stores it with its length and sets `PKT_READY`; a
discard changes only `OUTCOME` and `RAW_READY`; `RESULT` is `PKT_READY` after it. (No resync is due in this statement.) -/
def Obligations.PollDecodesTheWaitingBlock : Prop :=
  ∀ s : State, s.rawReady = true → (s.cursor = 0 ∨ (s.now.toNat + (2 ^ 32 - s.lastact.toNat)) % 2 ^ 32 ≤ 600) →
    (∀ f n, decodeBlock s.rxbuf = .frame f n →
      exec .rxpoll s = .next { s with rawReady := false, outcome := .ok, lastFrame := f, lastlen := BitVec.ofNat 4 n,
                                      pktReady := true, result := 1, cerr := .ok }) ∧
    (∀ oc, decodeBlock s.rxbuf = .discard oc →
      exec .rxpoll s = .next { s with rawReady := false, outcome := oc,
                                      result := if s.pktReady then 1 else 0, cerr := .ok })

/-- R227: the resync and the decode are independent: a poll that is due for both does both. -/
def Obligations.ResyncAndDecodeAreIndependent : Prop :=
  ∀ s t : State, s.cursor ≠ 0 → (s.now.toNat + (2 ^ 32 - s.lastact.toNat)) % 2 ^ 32 > 600 →
    exec .rxpoll { s with cursor := 0 } = .next t →
    exec .rxpoll s = .next { t with radioEvents := s.radioEvents ++ [.rearmRx] }

/-- R227: a second poll does not decode again: it leaves the state the first one left. -/
def Obligations.SecondPollChangesNothing : Prop :=
  ∀ s, ∃ t, exec .rxpoll s = .next t ∧ exec .rxpoll t = .next t

/-- R230, R234, R182: the decode delivers `f` with `n` bytes exactly when `f` is a validated frame of `n` bytes and the block carries its framed
stream, Manchester-coded, from physical bit 4 on. -/
def Obligations.DecodeDeliversExactlyCarriedFrames : Prop :=
  ∀ buf f n, decodeBlock buf = .frame f n ↔ ValidFrame f n ∧ Carries buf f n

/-- R230, R265, R266: which block is discarded, and as what: the first failing stage in the source's order. -/
def Obligations.DiscardsFollowTheStageOrder : Prop :=
  ∀ buf : Vector Byte 60,
    (decodeBlock buf = .discard .man1 ↔ ∃ t, t < 60 ∧ badPair buf t = true) ∧
    (decodeBlock buf = .discard .frm1 ↔
      (∀ t, t < 60 → badPair buf t = false) ∧ ∃ g, g < 12 ∧ frameBit buf (5 * g) = false) ∧
    ((∀ t, t < 60 → badPair buf t = false) → (∀ g, g < 12 → frameBit buf (5 * g) = true) →
      (decodeBlock buf = .discard .lclass ↔ carriedBit buf 4 7 = true ∧ carriedBit buf 4 6 = true) ∧
      ∀ x, ClassExtra (carriedBit buf 4 7) (carriedBit buf 4 6) x →
        (decodeBlock buf = .discard .man2 ↔ ∃ t, 60 ≤ t ∧ t < 60 + 10 * x ∧ badPair buf t = true) ∧
        (decodeBlock buf = .discard .frm2 ↔
          (∀ t, 60 ≤ t → t < 60 + 10 * x → badPair buf t = false) ∧
          ∃ g, 12 ≤ g ∧ g < 12 + 2 * x ∧ frameBit buf (5 * g) = false) ∧
        (decodeBlock buf = .discard .crc ↔
          (∀ t, 60 ≤ t → t < 60 + 10 * x → badPair buf t = false) ∧
          (∀ g, 12 ≤ g → g < 12 + 2 * x → frameBit buf (5 * g) = true) ∧
          ∃ d : List Byte, d.length = 6 + x ∧
            (∀ b q, b < 6 + x → q < 8 → (d.getD b 0).getLsbD q = carriedBit buf b q) ∧
            crc8 (d.take (5 + x)) ≠ d.getD (5 + x) 0))

/-- R235: what follows the bits of the frame in the block, and what stands before it, does not change the frame delivered; and no block's decode
depends on physical bits 0-3 or on `RXBUF[23]` to `RXBUF[59]`. -/
def Obligations.DecodeReadsOnlyTheFrameSpan : Prop :=
  (∀ buf buf' f n, decodeBlock buf = .frame f n → (∀ p, 4 ≤ p → p < 4 + 20 * n → airBit buf' p = airBit buf p) →
    decodeBlock buf' = .frame f n) ∧
  ∀ buf buf' : Vector Byte 60, (∀ p, 4 ≤ p → p < 184 → airBit buf' p = airBit buf p) → decodeBlock buf' = decodeBlock buf

/-- R243: a waiting block with an invalid pair in the first-stage span is discarded as `MAN1`, and the last frame and the ready flag stay as they
were. -/
def Obligations.CorruptedBlockLeavesTheLastFrame : Prop :=
  ∀ (s : State) (p : Nat), s.rawReady = true → p < 60 → badPair s.rxbuf p = true →
    ∃ t, exec .rxpoll s = .next t ∧ t.outcome = .man1 ∧ t.rawReady = false ∧ t.lastFrame = s.lastFrame ∧ t.lastlen = s.lastlen ∧
      t.pktReady = s.pktReady ∧ t.result = (if s.pktReady then 1 else 0) ∧ t.cerr = .ok

/-- R240: RXGET writes the nine bytes of `LAST_FRAME`, gives `LASTLEN`, clears `PKT_READY`, and changes nothing else. -/
def Obligations.RxgetCopiesTheLastFrame : Prop :=
  ∀ s : State, s.arg1.toNat ≤ 247 →
    ∃ t, exec .rxget s = .next t ∧
      t = { s with wram := t.wram, result := s.lastlen.setWidth 32, pktReady := false, cerr := .ok } ∧
      (∀ j : Fin 9, t.byte (s.arg1.toNat + j.val) = s.lastFrame[j]) ∧
      ∀ a, (∀ j, j < 9 → a ≠ s.arg1.toNat + j) → t.byte a = s.byte a

/-- R220, R230, R240: a block that carries a validated frame, appended whole and polled, is got back as that frame. -/
def Obligations.CarriedFrameIsReceived : Prop :=
  ∀ (s : State) (buf : Vector Byte 60) (f : Vector Byte 9) (n : Nat), ValidFrame f n → Carries buf f n →
    s.cursor = 0 → s.arg2.toNat ≥ 60 → s.arg0.toNat + 60 ≤ 256 → s.arg1.toNat ≤ 247 →
    (∀ j : Fin 60, s.byte (s.arg0.toNat + j.val) = buf[j]) →
    ∃ t u v, exec .rxappend s = .next t ∧ exec .rxpoll t = .next u ∧ exec .rxget u = .next v ∧
      t.result = 60 ∧ u.result = 1 ∧ v.result.toNat = n ∧ v.pktReady = false ∧
      ∀ j : Fin 9, v.byte (s.arg1.toNat + j.val) = f[j]

/-- R46: no step can observe the bytes of `RXBUF` that have not been written since the block was begun, so none can observe their reset
value (log entry 3): two states that differ only there take steps to two states that differ only there. -/
def Obligations.UnwrittenRxbufIsUnobservable : Prop :=
  ∀ s s' t, s.AgreeButUnwritten s' → step s = .next t → ∃ t', step s' = .next t' ∧ t.AgreeButUnwritten t'

/-- R293: straight after reset RXPOLL reports no packet and emits nothing, RXGET writes nine zero bytes, and CRC8 of no bytes gives 0. -/
def Obligations.FirstCommandsAfterReset : Prop :=
  exec .rxpoll State.reset = .next State.reset ∧ exec .crc8 State.reset = .next State.reset ∧
  ∀ a : Word, a.toNat ≤ 247 →
    ∃ t, exec .rxget (State.reset.withArgs 0 a 0 0) = .next t ∧ t.result = 0 ∧ t.radioEvents = [] ∧ t.cerr = .ok ∧
      ∀ j, j < 9 → t.byte (a.toNat + j) = 0

/-! ### Over all commands -/

/-- R109, R262: a command whose touched bytes are all in range (and CRCCHK with a length other than 0) completes, with `CERR` 0. -/
def Obligations.CommandsInRangeComplete : Prop :=
  ∀ i s, i.inRange s → (i = .crcchk → s.arg2 ≠ 0) → ∃ t, exec i s = .next t ∧ t.cerr = .ok

/-- R262, R263: a command that would touch a byte outside WRAM raises `RANGE` (CRCCHK only with a length other than 0) and changes nothing
else. -/
def Obligations.CommandsOutOfRangeRaiseRange : Prop :=
  ∀ i s, ¬ i.inRange s → (i = .crcchk → s.arg2 ≠ 0) → exec i s = .next { s with cerr := .range }

/-- R260: a command that ends in a command error changes nothing but `STATUS.CERR`. -/
def Obligations.CommandErrorsChangeOnlyCerr : Prop :=
  ∀ i s t, exec i s = .next t → t.cerr ≠ .ok → t = { s with cerr := t.cerr }

/-- R271: every command ends in a next state: the block has no trap and goes on taking commands. -/
def Obligations.EveryCommandHasANextState : Prop :=
  ∀ i s, ∃ t, exec i s = .next t

/-- R31, R32, R40: no command writes `CMD`, an operand register or `NOW`; nor does one touch the host's side. -/
def Obligations.CommandsKeepCmdOperandsAndTime : Prop :=
  ∀ i s t, exec i s = .next t →
    t.cmd = s.cmd ∧ t.arg0 = s.arg0 ∧ t.arg1 = s.arg1 ∧ t.arg2 = s.arg2 ∧ t.arg3 = s.arg3 ∧ t.now = s.now ∧
    t.resets = s.resets ∧ t.pending = s.pending ∧ t.replies = s.replies

/-- R33: `RESULT` is changed only by GETBIT, GETNIB, CRC8, CRCCHK, RXAPPEND, RXPOLL and RXGET. -/
def Obligations.ResultIsWrittenOnlyByItsCommands : Prop :=
  ∀ i s t, exec i s = .next t → t.result ≠ s.result →
    t.cerr = .ok ∧ i ∈ [Instr.getbit, .getbitL, .getnib, .getnibL, .crc8, .crcchk, .rxappend, .rxpoll, .rxget]

/-- R34: `ERRCNT` is changed only by MDEC and FDEC; the receive pipeline does not write it. -/
def Obligations.ErrcntIsWrittenOnlyByTheDecoders : Prop :=
  ∀ i s t, exec i s = .next t → t.errcnt ≠ s.errcnt → t.cerr = .ok ∧ i ∈ [Instr.mdec, .mdecA, .fdec, .fdecA]

/-- R37, R38, R39, R41, R42, R43, R46, R47, R52: which command may change which piece of the receive state, and that a command emits at most one
`REARM_RX`. -/
def Obligations.ReceiveStateIsWrittenOnlyByItsCommands : Prop :=
  ∀ i s t, exec i s = .next t →
    (t.rawReady ≠ s.rawReady → i = .rxappend ∧ t.rawReady = true ∨ i = .rxpoll ∧ t.rawReady = false) ∧
    (t.pktReady ≠ s.pktReady → i = .rxpoll ∧ t.pktReady = true ∨ i = .rxget ∧ t.pktReady = false) ∧
    (t.outcome ≠ s.outcome → i = .rxpoll) ∧ (t.lastact ≠ s.lastact → i = .rxappend ∧ t.lastact = s.now) ∧
    (t.cursor ≠ s.cursor → i = .rxappend ∨ i = .rxpoll ∧ t.cursor = 0) ∧
    (t.lastlen ≠ s.lastlen ∨ t.lastFrame ≠ s.lastFrame → i = .rxpoll ∧ t.outcome = .ok) ∧
    (t.rxbuf ≠ s.rxbuf → i = .rxappend) ∧
    (t.radioEvents = s.radioEvents ∨
      t.radioEvents = s.radioEvents ++ [.rearmRx] ∧ (i = .rxappend ∨ i = .rxpoll))

/-- R36, R39, R277: `CERR` is not sticky and `OUTCOME` steers nothing: a command takes no notice of what either holds before it, and only a
poll that decodes a block writes `OUTCOME`. -/
def Obligations.DiagnosticsSteerNoCommand : Prop :=
  ∀ i s t c oc, exec i s = .next t →
    exec i { s with cerr := c, outcome := oc } =
      .next { t with outcome := if i = .rxpoll ∧ s.rawReady = true then t.outcome else oc }

/-- R73: a command changes no byte of WRAM but those of its row's "Bytes written". -/
def Obligations.CommandsWriteOnlyTheirBytes : Prop :=
  ∀ i s t a, exec i s = .next t → ¬ i.writes s a → t.byte a = s.byte a

/-! ### The invariant -/

/-- R291: the invariant holds after reset. Its clause on WRAM is about the model's own listing of the written bytes (log entry 1). -/
def Obligations.ResetMeetsTheInvariant : Prop := State.reset.Inv

/-- R48, R70, R43, R47, R38: every step, from every state that meets it, keeps the invariant: WRAM canonical and inside 0..255, the cursor in 0..59,
`LAST_FRAME` zero or a validated frame of `LASTLEN` bytes, `PKT_READY` only with such a frame. That WRAM is a canonical list
of the written bytes is the model's representation (log entry 1). -/
def Obligations.StepKeepsTheInvariant : Prop :=
  ∀ s t, s.Inv → step s = .next t → t.Inv
end

