-- ==== Sys2Proof/Laws/State.lean ====
section
/-! SUPPORT. What each update of the state leaves in each field: one lemma per field per update, so that no proof unfolds a record
update. The updates that write many bytes, or that branch, have their lemmas where their laws are. -/

namespace Sys2Proof.Machine

variable (s : State)

/-! ### `setByte` -/

@[simp] theorem State.setByte_cmd (a : Nat) (v : Byte) : (s.setByte a v).cmd = s.cmd := rfl
@[simp] theorem State.setByte_arg0 (a : Nat) (v : Byte) : (s.setByte a v).arg0 = s.arg0 := rfl
@[simp] theorem State.setByte_arg1 (a : Nat) (v : Byte) : (s.setByte a v).arg1 = s.arg1 := rfl
@[simp] theorem State.setByte_arg2 (a : Nat) (v : Byte) : (s.setByte a v).arg2 = s.arg2 := rfl
@[simp] theorem State.setByte_arg3 (a : Nat) (v : Byte) : (s.setByte a v).arg3 = s.arg3 := rfl
@[simp] theorem State.setByte_result (a : Nat) (v : Byte) : (s.setByte a v).result = s.result := rfl
@[simp] theorem State.setByte_errcnt (a : Nat) (v : Byte) : (s.setByte a v).errcnt = s.errcnt := rfl
@[simp] theorem State.setByte_cerr (a : Nat) (v : Byte) : (s.setByte a v).cerr = s.cerr := rfl
@[simp] theorem State.setByte_rawReady (a : Nat) (v : Byte) : (s.setByte a v).rawReady = s.rawReady := rfl
@[simp] theorem State.setByte_pktReady (a : Nat) (v : Byte) : (s.setByte a v).pktReady = s.pktReady := rfl
@[simp] theorem State.setByte_outcome (a : Nat) (v : Byte) : (s.setByte a v).outcome = s.outcome := rfl
@[simp] theorem State.setByte_cursor (a : Nat) (v : Byte) : (s.setByte a v).cursor = s.cursor := rfl
@[simp] theorem State.setByte_now (a : Nat) (v : Byte) : (s.setByte a v).now = s.now := rfl
@[simp] theorem State.setByte_lastact (a : Nat) (v : Byte) : (s.setByte a v).lastact = s.lastact := rfl
@[simp] theorem State.setByte_lastlen (a : Nat) (v : Byte) : (s.setByte a v).lastlen = s.lastlen := rfl
@[simp] theorem State.setByte_rxbuf (a : Nat) (v : Byte) : (s.setByte a v).rxbuf = s.rxbuf := rfl
@[simp] theorem State.setByte_lastFrame (a : Nat) (v : Byte) : (s.setByte a v).lastFrame = s.lastFrame := rfl
@[simp] theorem State.setByte_wram (a : Nat) (v : Byte) : (s.setByte a v).wram = s.wram.set a v := rfl
@[simp] theorem State.setByte_radioEvents (a : Nat) (v : Byte) : (s.setByte a v).radioEvents = s.radioEvents := rfl
@[simp] theorem State.setByte_resets (a : Nat) (v : Byte) : (s.setByte a v).resets = s.resets := rfl
@[simp] theorem State.setByte_pending (a : Nat) (v : Byte) : (s.setByte a v).pending = s.pending := rfl
@[simp] theorem State.setByte_replies (a : Nat) (v : Byte) : (s.setByte a v).replies = s.replies := rfl

/-! ### `setResult` -/

@[simp] theorem State.setResult_cmd (v : Word) : (s.setResult v).cmd = s.cmd := rfl
@[simp] theorem State.setResult_arg0 (v : Word) : (s.setResult v).arg0 = s.arg0 := rfl
@[simp] theorem State.setResult_arg1 (v : Word) : (s.setResult v).arg1 = s.arg1 := rfl
@[simp] theorem State.setResult_arg2 (v : Word) : (s.setResult v).arg2 = s.arg2 := rfl
@[simp] theorem State.setResult_arg3 (v : Word) : (s.setResult v).arg3 = s.arg3 := rfl
@[simp] theorem State.setResult_result (v : Word) : (s.setResult v).result = v := rfl
@[simp] theorem State.setResult_errcnt (v : Word) : (s.setResult v).errcnt = s.errcnt := rfl
@[simp] theorem State.setResult_cerr (v : Word) : (s.setResult v).cerr = s.cerr := rfl
@[simp] theorem State.setResult_rawReady (v : Word) : (s.setResult v).rawReady = s.rawReady := rfl
@[simp] theorem State.setResult_pktReady (v : Word) : (s.setResult v).pktReady = s.pktReady := rfl
@[simp] theorem State.setResult_outcome (v : Word) : (s.setResult v).outcome = s.outcome := rfl
@[simp] theorem State.setResult_cursor (v : Word) : (s.setResult v).cursor = s.cursor := rfl
@[simp] theorem State.setResult_now (v : Word) : (s.setResult v).now = s.now := rfl
@[simp] theorem State.setResult_lastact (v : Word) : (s.setResult v).lastact = s.lastact := rfl
@[simp] theorem State.setResult_lastlen (v : Word) : (s.setResult v).lastlen = s.lastlen := rfl
@[simp] theorem State.setResult_rxbuf (v : Word) : (s.setResult v).rxbuf = s.rxbuf := rfl
@[simp] theorem State.setResult_lastFrame (v : Word) : (s.setResult v).lastFrame = s.lastFrame := rfl
@[simp] theorem State.setResult_wram (v : Word) : (s.setResult v).wram = s.wram := rfl
@[simp] theorem State.setResult_radioEvents (v : Word) : (s.setResult v).radioEvents = s.radioEvents := rfl
@[simp] theorem State.setResult_resets (v : Word) : (s.setResult v).resets = s.resets := rfl
@[simp] theorem State.setResult_pending (v : Word) : (s.setResult v).pending = s.pending := rfl
@[simp] theorem State.setResult_replies (v : Word) : (s.setResult v).replies = s.replies := rfl

/-! ### `countErrors` -/

@[simp] theorem State.countErrors_cmd (acc : Bool) (e : Nat) : (s.countErrors acc e).cmd = s.cmd := rfl
@[simp] theorem State.countErrors_arg0 (acc : Bool) (e : Nat) : (s.countErrors acc e).arg0 = s.arg0 := rfl
@[simp] theorem State.countErrors_arg1 (acc : Bool) (e : Nat) : (s.countErrors acc e).arg1 = s.arg1 := rfl
@[simp] theorem State.countErrors_arg2 (acc : Bool) (e : Nat) : (s.countErrors acc e).arg2 = s.arg2 := rfl
@[simp] theorem State.countErrors_arg3 (acc : Bool) (e : Nat) : (s.countErrors acc e).arg3 = s.arg3 := rfl
@[simp] theorem State.countErrors_result (acc : Bool) (e : Nat) : (s.countErrors acc e).result = s.result := rfl
@[simp] theorem State.countErrors_errcnt (acc : Bool) (e : Nat) : (s.countErrors acc e).errcnt = if acc then s.errcnt + BitVec.ofNat Config.errcntBits e else BitVec.ofNat Config.errcntBits e := rfl
@[simp] theorem State.countErrors_cerr (acc : Bool) (e : Nat) : (s.countErrors acc e).cerr = s.cerr := rfl
@[simp] theorem State.countErrors_rawReady (acc : Bool) (e : Nat) : (s.countErrors acc e).rawReady = s.rawReady := rfl
@[simp] theorem State.countErrors_pktReady (acc : Bool) (e : Nat) : (s.countErrors acc e).pktReady = s.pktReady := rfl
@[simp] theorem State.countErrors_outcome (acc : Bool) (e : Nat) : (s.countErrors acc e).outcome = s.outcome := rfl
@[simp] theorem State.countErrors_cursor (acc : Bool) (e : Nat) : (s.countErrors acc e).cursor = s.cursor := rfl
@[simp] theorem State.countErrors_now (acc : Bool) (e : Nat) : (s.countErrors acc e).now = s.now := rfl
@[simp] theorem State.countErrors_lastact (acc : Bool) (e : Nat) : (s.countErrors acc e).lastact = s.lastact := rfl
@[simp] theorem State.countErrors_lastlen (acc : Bool) (e : Nat) : (s.countErrors acc e).lastlen = s.lastlen := rfl
@[simp] theorem State.countErrors_rxbuf (acc : Bool) (e : Nat) : (s.countErrors acc e).rxbuf = s.rxbuf := rfl
@[simp] theorem State.countErrors_lastFrame (acc : Bool) (e : Nat) : (s.countErrors acc e).lastFrame = s.lastFrame := rfl
@[simp] theorem State.countErrors_wram (acc : Bool) (e : Nat) : (s.countErrors acc e).wram = s.wram := rfl
@[simp] theorem State.countErrors_radioEvents (acc : Bool) (e : Nat) : (s.countErrors acc e).radioEvents = s.radioEvents := rfl
@[simp] theorem State.countErrors_resets (acc : Bool) (e : Nat) : (s.countErrors acc e).resets = s.resets := rfl
@[simp] theorem State.countErrors_pending (acc : Bool) (e : Nat) : (s.countErrors acc e).pending = s.pending := rfl
@[simp] theorem State.countErrors_replies (acc : Bool) (e : Nat) : (s.countErrors acc e).replies = s.replies := rfl

/-! ### `emitRearm` -/

@[simp] theorem State.emitRearm_cmd : (s.emitRearm).cmd = s.cmd := rfl
@[simp] theorem State.emitRearm_arg0 : (s.emitRearm).arg0 = s.arg0 := rfl
@[simp] theorem State.emitRearm_arg1 : (s.emitRearm).arg1 = s.arg1 := rfl
@[simp] theorem State.emitRearm_arg2 : (s.emitRearm).arg2 = s.arg2 := rfl
@[simp] theorem State.emitRearm_arg3 : (s.emitRearm).arg3 = s.arg3 := rfl
@[simp] theorem State.emitRearm_result : (s.emitRearm).result = s.result := rfl
@[simp] theorem State.emitRearm_errcnt : (s.emitRearm).errcnt = s.errcnt := rfl
@[simp] theorem State.emitRearm_cerr : (s.emitRearm).cerr = s.cerr := rfl
@[simp] theorem State.emitRearm_rawReady : (s.emitRearm).rawReady = s.rawReady := rfl
@[simp] theorem State.emitRearm_pktReady : (s.emitRearm).pktReady = s.pktReady := rfl
@[simp] theorem State.emitRearm_outcome : (s.emitRearm).outcome = s.outcome := rfl
@[simp] theorem State.emitRearm_cursor : (s.emitRearm).cursor = s.cursor := rfl
@[simp] theorem State.emitRearm_now : (s.emitRearm).now = s.now := rfl
@[simp] theorem State.emitRearm_lastact : (s.emitRearm).lastact = s.lastact := rfl
@[simp] theorem State.emitRearm_lastlen : (s.emitRearm).lastlen = s.lastlen := rfl
@[simp] theorem State.emitRearm_rxbuf : (s.emitRearm).rxbuf = s.rxbuf := rfl
@[simp] theorem State.emitRearm_lastFrame : (s.emitRearm).lastFrame = s.lastFrame := rfl
@[simp] theorem State.emitRearm_wram : (s.emitRearm).wram = s.wram := rfl
@[simp] theorem State.emitRearm_radioEvents : (s.emitRearm).radioEvents = s.radioEvents ++ [.rearmRx] := rfl
@[simp] theorem State.emitRearm_resets : (s.emitRearm).resets = s.resets := rfl
@[simp] theorem State.emitRearm_pending : (s.emitRearm).pending = s.pending := rfl
@[simp] theorem State.emitRearm_replies : (s.emitRearm).replies = s.replies := rfl

/-! ### `completeBlock` -/

@[simp] theorem State.completeBlock_cmd : (s.completeBlock).cmd = s.cmd := rfl
@[simp] theorem State.completeBlock_arg0 : (s.completeBlock).arg0 = s.arg0 := rfl
@[simp] theorem State.completeBlock_arg1 : (s.completeBlock).arg1 = s.arg1 := rfl
@[simp] theorem State.completeBlock_arg2 : (s.completeBlock).arg2 = s.arg2 := rfl
@[simp] theorem State.completeBlock_arg3 : (s.completeBlock).arg3 = s.arg3 := rfl
@[simp] theorem State.completeBlock_result : (s.completeBlock).result = s.result := rfl
@[simp] theorem State.completeBlock_errcnt : (s.completeBlock).errcnt = s.errcnt := rfl
@[simp] theorem State.completeBlock_cerr : (s.completeBlock).cerr = s.cerr := rfl
@[simp] theorem State.completeBlock_rawReady : (s.completeBlock).rawReady = true := rfl
@[simp] theorem State.completeBlock_pktReady : (s.completeBlock).pktReady = s.pktReady := rfl
@[simp] theorem State.completeBlock_outcome : (s.completeBlock).outcome = s.outcome := rfl
@[simp] theorem State.completeBlock_cursor : (s.completeBlock).cursor = 0 := rfl
@[simp] theorem State.completeBlock_now : (s.completeBlock).now = s.now := rfl
@[simp] theorem State.completeBlock_lastact : (s.completeBlock).lastact = s.lastact := rfl
@[simp] theorem State.completeBlock_lastlen : (s.completeBlock).lastlen = s.lastlen := rfl
@[simp] theorem State.completeBlock_rxbuf : (s.completeBlock).rxbuf = s.rxbuf := rfl
@[simp] theorem State.completeBlock_lastFrame : (s.completeBlock).lastFrame = s.lastFrame := rfl
@[simp] theorem State.completeBlock_wram : (s.completeBlock).wram = s.wram := rfl
@[simp] theorem State.completeBlock_radioEvents : (s.completeBlock).radioEvents = s.radioEvents ++ [.rearmRx] := rfl
@[simp] theorem State.completeBlock_resets : (s.completeBlock).resets = s.resets := rfl
@[simp] theorem State.completeBlock_pending : (s.completeBlock).pending = s.pending := rfl
@[simp] theorem State.completeBlock_replies : (s.completeBlock).replies = s.replies := rfl

/-! ### `appendBytes` -/

@[simp] theorem State.appendBytes_cmd (k : Nat) : (s.appendBytes k).cmd = s.cmd := rfl
@[simp] theorem State.appendBytes_arg0 (k : Nat) : (s.appendBytes k).arg0 = s.arg0 := rfl
@[simp] theorem State.appendBytes_arg1 (k : Nat) : (s.appendBytes k).arg1 = s.arg1 := rfl
@[simp] theorem State.appendBytes_arg2 (k : Nat) : (s.appendBytes k).arg2 = s.arg2 := rfl
@[simp] theorem State.appendBytes_arg3 (k : Nat) : (s.appendBytes k).arg3 = s.arg3 := rfl
@[simp] theorem State.appendBytes_result (k : Nat) : (s.appendBytes k).result = s.result := rfl
@[simp] theorem State.appendBytes_errcnt (k : Nat) : (s.appendBytes k).errcnt = s.errcnt := rfl
@[simp] theorem State.appendBytes_cerr (k : Nat) : (s.appendBytes k).cerr = s.cerr := rfl
@[simp] theorem State.appendBytes_rawReady (k : Nat) : (s.appendBytes k).rawReady = s.rawReady := rfl
@[simp] theorem State.appendBytes_pktReady (k : Nat) : (s.appendBytes k).pktReady = s.pktReady := rfl
@[simp] theorem State.appendBytes_outcome (k : Nat) : (s.appendBytes k).outcome = s.outcome := rfl
@[simp] theorem State.appendBytes_cursor (k : Nat) : (s.appendBytes k).cursor = BitVec.ofNat 6 (s.cursor.toNat + k) := rfl
@[simp] theorem State.appendBytes_now (k : Nat) : (s.appendBytes k).now = s.now := rfl
@[simp] theorem State.appendBytes_lastact (k : Nat) : (s.appendBytes k).lastact = if k > 0 then s.now else s.lastact := rfl
@[simp] theorem State.appendBytes_lastlen (k : Nat) : (s.appendBytes k).lastlen = s.lastlen := rfl
@[simp] theorem State.appendBytes_rxbuf (k : Nat) : (s.appendBytes k).rxbuf = s.appended k := rfl
@[simp] theorem State.appendBytes_lastFrame (k : Nat) : (s.appendBytes k).lastFrame = s.lastFrame := rfl
@[simp] theorem State.appendBytes_wram (k : Nat) : (s.appendBytes k).wram = s.wram := rfl
@[simp] theorem State.appendBytes_radioEvents (k : Nat) : (s.appendBytes k).radioEvents = s.radioEvents := rfl
@[simp] theorem State.appendBytes_resets (k : Nat) : (s.appendBytes k).resets = s.resets := rfl
@[simp] theorem State.appendBytes_pending (k : Nat) : (s.appendBytes k).pending = s.pending := rfl
@[simp] theorem State.appendBytes_replies (k : Nat) : (s.appendBytes k).replies = s.replies := rfl

/-! ### `withArgs` -/

@[simp] theorem State.withArgs_cmd (a0 a1 a2 a3 : Word) : (s.withArgs a0 a1 a2 a3).cmd = s.cmd := rfl
@[simp] theorem State.withArgs_arg0 (a0 a1 a2 a3 : Word) : (s.withArgs a0 a1 a2 a3).arg0 = a0 := rfl
@[simp] theorem State.withArgs_arg1 (a0 a1 a2 a3 : Word) : (s.withArgs a0 a1 a2 a3).arg1 = a1 := rfl
@[simp] theorem State.withArgs_arg2 (a0 a1 a2 a3 : Word) : (s.withArgs a0 a1 a2 a3).arg2 = a2 := rfl
@[simp] theorem State.withArgs_arg3 (a0 a1 a2 a3 : Word) : (s.withArgs a0 a1 a2 a3).arg3 = a3 := rfl
@[simp] theorem State.withArgs_result (a0 a1 a2 a3 : Word) : (s.withArgs a0 a1 a2 a3).result = s.result := rfl
@[simp] theorem State.withArgs_errcnt (a0 a1 a2 a3 : Word) : (s.withArgs a0 a1 a2 a3).errcnt = s.errcnt := rfl
@[simp] theorem State.withArgs_cerr (a0 a1 a2 a3 : Word) : (s.withArgs a0 a1 a2 a3).cerr = s.cerr := rfl
@[simp] theorem State.withArgs_rawReady (a0 a1 a2 a3 : Word) : (s.withArgs a0 a1 a2 a3).rawReady = s.rawReady := rfl
@[simp] theorem State.withArgs_pktReady (a0 a1 a2 a3 : Word) : (s.withArgs a0 a1 a2 a3).pktReady = s.pktReady := rfl
@[simp] theorem State.withArgs_outcome (a0 a1 a2 a3 : Word) : (s.withArgs a0 a1 a2 a3).outcome = s.outcome := rfl
@[simp] theorem State.withArgs_cursor (a0 a1 a2 a3 : Word) : (s.withArgs a0 a1 a2 a3).cursor = s.cursor := rfl
@[simp] theorem State.withArgs_now (a0 a1 a2 a3 : Word) : (s.withArgs a0 a1 a2 a3).now = s.now := rfl
@[simp] theorem State.withArgs_lastact (a0 a1 a2 a3 : Word) : (s.withArgs a0 a1 a2 a3).lastact = s.lastact := rfl
@[simp] theorem State.withArgs_lastlen (a0 a1 a2 a3 : Word) : (s.withArgs a0 a1 a2 a3).lastlen = s.lastlen := rfl
@[simp] theorem State.withArgs_rxbuf (a0 a1 a2 a3 : Word) : (s.withArgs a0 a1 a2 a3).rxbuf = s.rxbuf := rfl
@[simp] theorem State.withArgs_lastFrame (a0 a1 a2 a3 : Word) : (s.withArgs a0 a1 a2 a3).lastFrame = s.lastFrame := rfl
@[simp] theorem State.withArgs_wram (a0 a1 a2 a3 : Word) : (s.withArgs a0 a1 a2 a3).wram = s.wram := rfl
@[simp] theorem State.withArgs_radioEvents (a0 a1 a2 a3 : Word) : (s.withArgs a0 a1 a2 a3).radioEvents = s.radioEvents := rfl
@[simp] theorem State.withArgs_resets (a0 a1 a2 a3 : Word) : (s.withArgs a0 a1 a2 a3).resets = s.resets := rfl
@[simp] theorem State.withArgs_pending (a0 a1 a2 a3 : Word) : (s.withArgs a0 a1 a2 a3).pending = s.pending := rfl
@[simp] theorem State.withArgs_replies (a0 a1 a2 a3 : Word) : (s.withArgs a0 a1 a2 a3).replies = s.replies := rfl
@[simp] theorem State.withArgs_byte (a0 a1 a2 a3 : Word) : (s.withArgs a0 a1 a2 a3).byte = s.byte := rfl
@[simp] theorem State.withArgs_bit (a0 a1 a2 a3 : Word) : (s.withArgs a0 a1 a2 a3).bit = s.bit := rfl

end Sys2Proof.Machine
end

