-- ==== Sys2Proof/Laws/Checksum.lean ====
section
/-! SUPPORT. The checksum (R203, R206, R207): its register reads a byte by exclusive or, each step can be undone, and reading the register's
own value empties it. -/

namespace Sys2Proof.Machine

@[simp] theorem crc8_nil : crc8 [] = 0 := rfl

theorem crc8_append (d e : List Byte) : crc8 (d ++ e) = e.foldl (crcBits 8) (crc8 d) := by
  simp [crc8, List.foldl_append]

theorem crc8_concat (d : List Byte) (x : Byte) : crc8 (d ++ [x]) = crcBits 8 (crc8 d) x := by
  simp [crc8_append]

/-- One step reads the bit by exclusive or with the register's least significant bit. -/
theorem crcBit_xor (c x : Byte) : crcBit c (x.getLsbD 0) ^^^ (x >>> 1) = crcBit (c ^^^ x) false := by
  simp only [crcBit, BitVec.getLsbD_xor, Bool.xor_false]
  have h : (c ^^^ x) >>> 1 = (c >>> 1) ^^^ (x >>> 1) := by
    ext i hi; simp
  split_ifs
  · rw [h, BitVec.xor_assoc, BitVec.xor_assoc, BitVec.xor_comm Config.crcPoly]
  · rw [h]

/-- Reading `n` bits of `x` into `c` is reading zeros into `c ^^^ x`. -/
theorem crcBits_xor (n : Nat) (c x : Byte) : crcBits n c x ^^^ (x >>> n) = crcBits n (c ^^^ x) 0 := by
  induction n generalizing c x with
  | zero => simp [crcBits]
  | succ n ih =>
    rw [crcBits, crcBits]
    have h0 : (0 : Byte) >>> 1 = 0 := rfl
    have h1 : (0 : Byte).getLsbD 0 = false := rfl
    have h2 : x >>> (n + 1) = (x >>> 1) >>> n := by
      ext i hi; simp; congr 1; omega
    rw [h0, h1, ← crcBit_xor, ← ih, h2]

theorem crcBits_eight (c x : Byte) : crcBits 8 c x = crcBits 8 (c ^^^ x) 0 := by
  have h := crcBits_xor 8 c x
  rw [show x >>> 8 = 0#8 by ext i hi; simp, BitVec.xor_zero] at h
  exact h

/-- One step can be undone: the polynomial has its top bit set, so the top bit of the result says whether it was added. -/
theorem crcBit_injective (c c' : Byte) (b : Bool) (h : crcBit c b = crcBit c' b) : c = c' := by
  have key : ∀ c : Byte, ∀ b : Bool,
      (((if (crcBit c b).getLsbD 7 then crcBit c b ^^^ Config.crcPoly else crcBit c b) <<< 1) |||
        (if (crcBit c b).getLsbD 7 ^^ b then 1#8 else 0#8)) = c := by decide +kernel
  rw [← key c b, ← key c' b, h]

theorem crcBits_injective_left (n : Nat) (c c' x : Byte) (h : crcBits n c x = crcBits n c' x) : c = c' := by
  induction n generalizing c c' x with
  | zero => exact h
  | succ n ih => exact crcBit_injective c c' _ (ih _ _ _ h)

theorem crcBits_injective_right (c x x' : Byte) (h : crcBits 8 c x = crcBits 8 c x') : x = x' := by
  rw [crcBits_eight c x, crcBits_eight c x'] at h
  have h := crcBits_injective_left 8 _ _ _ h
  have h2 := congrArg (c ^^^ ·) h
  simpa [← BitVec.xor_assoc] using h2

/-- The register read into itself is empty. -/
theorem crcBits_self (c : Byte) : crcBits 8 c c = 0 := by
  rw [crcBits_eight, BitVec.xor_self]; rfl

theorem foldl_crcBits_injective (e : List Byte) (c c' : Byte)
    (h : e.foldl (crcBits 8) c = e.foldl (crcBits 8) c') : c = c' := by
  induction e generalizing c c' with
  | nil => exact h
  | cons x rest ih => exact crcBits_injective_left 8 c c' x (ih _ _ h)

end Sys2Proof.Machine
end

