-- ==== Sys2Proof/Laws/Memory.lean ====
section
/-! SUPPORT. The laws of WRAM (R70-R72): a read after a write, the canonical form, and the bytes and bits of a state after the writing
operations. -/

namespace Sys2Proof.Machine

/-! ### The list -/

theorem Memory.get?_set (m : Memory) (a b : Nat) (v : Byte) :
    (Memory.set m a v).get? b = if b = a then some v else m.get? b := by
  induction m with
  | nil => simp [Memory.set, Memory.get?, eq_comm]
  | cons c rest ih =>
    obtain ⟨d, u⟩ := c
    unfold Memory.set
    by_cases h1 : a < d
    · rw [if_pos h1, Memory.get?]
      by_cases hb : b = a
      · rw [if_pos hb, if_pos hb.symm]
      · rw [if_neg hb, if_neg (Ne.symm hb)]
    · rw [if_neg h1]
      by_cases h2 : a = d
      · subst h2
        rw [if_pos rfl, Memory.get?, Memory.get?]
        by_cases hb : b = a
        · rw [if_pos hb, if_pos hb.symm]
        · rw [if_neg hb, if_neg (Ne.symm hb), if_neg (Ne.symm hb)]
      · rw [if_neg h2, Memory.get?, Memory.get?, ih]
        by_cases hd : d = b
        · rw [if_pos hd, if_pos hd, if_neg (by omega)]
        · rw [if_neg hd, if_neg hd]

theorem Memory.rising_set (m : Memory) (lo a : Nat) (v : Byte) (h : Memory.risingFrom lo m = true) (ha : lo ≤ a) :
    Memory.risingFrom lo (Memory.set m a v) = true := by
  induction m generalizing lo with
  | nil => simp [Memory.set, Memory.risingFrom, ha]
  | cons c rest ih =>
    obtain ⟨d, u⟩ := c
    simp only [Memory.risingFrom, Bool.and_eq_true, decide_eq_true_eq] at h
    unfold Memory.set
    split_ifs with h1 h2
    · simp only [Memory.risingFrom, Bool.and_eq_true, decide_eq_true_eq]
      exact ⟨ha, by omega, h.2⟩
    · simp only [Memory.risingFrom, Bool.and_eq_true, decide_eq_true_eq]
      exact ⟨ha, h2 ▸ h.2⟩
    · simp only [Memory.risingFrom, Bool.and_eq_true, decide_eq_true_eq]
      exact ⟨h.1, ih _ h.2 (by omega)⟩

theorem Memory.mem_set (m : Memory) (a : Nat) (v : Byte) (c : Host.Cell) (h : c ∈ Memory.set m a v) :
    c = (a, v) ∨ c ∈ m := by
  induction m with
  | nil => simpa [Memory.set] using h
  | cons d rest ih =>
    obtain ⟨d, u⟩ := d
    unfold Memory.set at h
    split_ifs at h <;> simp only [List.mem_cons] at h ⊢ <;> tauto

/-- A write inside WRAM keeps the canonical form. -/
theorem Memory.wf_set (m : Memory) (a : Nat) (v : Byte) (h : m.wf = true) (ha : a < 256) :
    (Memory.set m a v).wf = true := by
  simp only [Memory.wf, Bool.and_eq_true, List.all_eq_true, decide_eq_true_eq] at h ⊢
  refine ⟨Memory.rising_set m 0 a v h.1 (Nat.zero_le a), fun c hc => ?_⟩
  rcases Memory.mem_set m a v c hc with rfl | hc
  · exact ha
  · exact h.2 c hc

/-! ### Bytes -/

/-- A read after a write of a byte gives the byte written there, and every other byte as before. -/
theorem State.byte_setByte (s : State) (a b : Nat) (v : Byte) :
    (s.setByte a v).byte b = if b = a then v else s.byte b := by
  simp only [State.byte, State.setByte, Memory.get?_set]
  split_ifs <;> rfl

/-- The update of WRAM alone, as the writing operations make it: everything else is as before. -/
theorem State.writeBytes_eq (s : State) (a : Nat) (l : List Byte) :
    s.writeBytes a l = { s with wram := (s.writeBytes a l).wram } := by
  induction l generalizing s a with
  | nil => rfl
  | cons v rest ih => rw [State.writeBytes, ih]; rfl

/-- What `MemWrite` leaves in every byte. -/
theorem State.byte_writeBytes (s : State) (a : Nat) (l : List Byte) (b : Nat) :
    (s.writeBytes a l).byte b = if a ≤ b ∧ b < a + l.length then l.getD (b - a) 0 else s.byte b := by
  induction l generalizing s a with
  | nil => simp [State.writeBytes]
  | cons v rest ih =>
    rw [State.writeBytes, ih, State.byte_setByte]
    by_cases hb : b = a
    · subst hb; simp
    · by_cases h : a ≤ b ∧ b < a + (v :: rest).length
      · have h' : a + 1 ≤ b ∧ b < a + 1 + rest.length := by simp at h; omega
        rw [if_pos h, if_pos h', show b - a = (b - (a + 1)) + 1 by omega, List.getD_cons_succ]
      · have h' : ¬ (a + 1 ≤ b ∧ b < a + 1 + rest.length) := by simp at h; omega
        rw [if_neg h, if_neg h', if_neg hb]

theorem State.wf_writeBytes (s : State) (a : Nat) (l : List Byte) (h : s.wram.wf = true)
    (ha : l = [] ∨ a + l.length ≤ 256) : (s.writeBytes a l).wram.wf = true := by
  induction l generalizing s a with
  | nil => exact h
  | cons v rest ih =>
    have ha : a + (rest.length + 1) ≤ 256 := by simpa using ha
    rw [State.writeBytes]
    exact ih _ _ (Memory.wf_set _ _ _ h (by omega)) (.inr (by omega))

@[simp] theorem State.length_readBytes (s : State) (a n : Nat) : (s.readBytes a n).length = n := by
  simp [State.readBytes]

theorem State.readBytes_succ (s : State) (a n : Nat) : s.readBytes a (n + 1) = s.readBytes a n ++ [s.byte (a + n)] := by
  simp [State.readBytes, List.range_succ]

/-! ### Bits (R77) -/

theorem bitPlace_lt (ord : BitOrder) (i : Nat) : bitPlace ord i < 8 := by
  cases ord <;> simp only [bitPlace] <;> omega

theorem bitPlace_eq_iff (ord : BitOrder) (i k : Nat) (hk : k < 8) :
    bitPlace ord i = k ↔ i % 8 = bitPlace ord k := by
  cases ord <;> simp only [bitPlace] <;> omega

theorem getLsbD_putBit (x : Byte) (k j : Nat) (v : Bool) (hk : k < 8) (hj : j < 8) :
    (putBit x k v).getLsbD j = if j = k then v else x.getLsbD j := by
  interval_cases k <;> interval_cases j <;> cases v <;> simp [putBit]

/-- What `BitWrite` leaves in every value bit of every byte. -/
theorem State.getLsbD_bitWrite (s : State) (base i : Nat) (ord : BitOrder) (v : Bool) (a k : Nat) (hk : k < 8) :
    ((s.bitWrite base i ord v).byte a).getLsbD k =
      if a = base + i / 8 ∧ k = bitPlace ord i then v else (s.byte a).getLsbD k := by
  rw [State.bitWrite, State.byte_setByte]
  by_cases ha : a = base + i / 8
  · simp only [ha, if_pos, true_and]
    exact getLsbD_putBit _ _ _ _ (bitPlace_lt ord i) hk
  · simp [ha]

theorem State.writeBits_eq (s : State) (base start : Nat) (ord : BitOrder) (l : List (Option Bool)) :
    s.writeBits base start ord l = { s with wram := (s.writeBits base start ord l).wram } := by
  induction l generalizing s start with
  | nil => rfl
  | cons b rest ih =>
    cases b with
    | none => rw [State.writeBits, ih]
    | some v => rw [State.writeBits, ih]; rfl

/-- What writing a stream leaves in every value bit of every byte: the stream bit at that place, where it is one of those written. -/
theorem State.getLsbD_writeBits (s : State) (base start : Nat) (ord : BitOrder) (l : List (Option Bool)) (a k : Nat)
    (hk : k < 8) :
    ((s.writeBits base start ord l).byte a).getLsbD k =
      if base ≤ a ∧ start ≤ 8 * (a - base) + bitPlace ord k ∧ 8 * (a - base) + bitPlace ord k < start + l.length
      then ((l.getD (8 * (a - base) + bitPlace ord k - start) none).getD ((s.byte a).getLsbD k))
      else (s.byte a).getLsbD k := by
  have hp := bitPlace_lt ord k
  induction l generalizing s start with
  | nil => simp [State.writeBits]
  | cons b rest ih =>
    set i := 8 * (a - base) + bitPlace ord k with hi
    have key : ∀ t : State, (b = none → t = s) → (∀ v, b = some v → t = s.bitWrite base start ord v) →
        ((t.writeBits base (start + 1) ord rest).byte a).getLsbD k =
          if base ≤ a ∧ start ≤ i ∧ i < start + (b :: rest).length
          then (((b :: rest).getD (i - start) none).getD ((s.byte a).getLsbD k))
          else (s.byte a).getLsbD k := by
      intro t h0 h1
      rw [ih t (start + 1)]
      have hplace : base ≤ a → (start = i ↔ (a = base + start / 8 ∧ k = bitPlace ord start)) := by
        intro hb
        have := bitPlace_eq_iff ord start k hk
        constructor
        · intro h; subst h; refine ⟨by omega, ?_⟩; rw [eq_comm, this]; omega
        · rintro ⟨h2, h3⟩; rw [eq_comm, this] at h3; omega
      by_cases hsi : base ≤ a ∧ start = i
      · obtain ⟨hb, hsi⟩ := hsi
        have h2 : ¬ (base ≤ a ∧ start + 1 ≤ i ∧ i < start + 1 + rest.length) := by omega
        have h3 : base ≤ a ∧ start ≤ i ∧ i < start + (b :: rest).length := by simp; omega
        rw [if_neg h2, if_pos h3, show i - start = 0 by omega, List.getD_cons_zero]
        cases b with
        | none => rw [h0 rfl]; rfl
        | some v =>
          rw [h1 v rfl, State.getLsbD_bitWrite _ _ _ _ _ _ _ hk, if_pos ((hplace hb).mp hsi)]; rfl
      · have hold : (t.byte a).getLsbD k = (s.byte a).getLsbD k := by
          cases b with
          | none => rw [h0 rfl]
          | some v =>
            rw [h1 v rfl, State.getLsbD_bitWrite _ _ _ _ _ _ _ hk, if_neg]
            rintro ⟨h2, h3⟩
            have hb : base ≤ a := by omega
            exact hsi ⟨hb, (hplace hb).mpr ⟨h2, h3⟩⟩
        rw [hold]
        by_cases hin : base ≤ a ∧ start + 1 ≤ i ∧ i < start + 1 + rest.length
        · have h3 : base ≤ a ∧ start ≤ i ∧ i < start + (b :: rest).length := by simp; omega
          rw [if_pos hin, if_pos h3, show i - start = (i - (start + 1)) + 1 by omega, List.getD_cons_succ]
        · have h3 : ¬ (base ≤ a ∧ start ≤ i ∧ i < start + (b :: rest).length) := by
            simp only [List.length_cons]; intro h; apply hin; refine ⟨h.1, ?_, by omega⟩
            rcases Nat.lt_or_ge start i with h4 | h4
            · exact h4
            · exact absurd ⟨h.1, by omega⟩ hsi
          rw [if_neg hin, if_neg h3]
    cases b with
    | none => exact key s (fun _ => rfl) (fun v h => by cases h)
    | some v => exact key _ (fun h => by cases h) (fun w h => by cases h; rfl)

theorem State.wf_bitWrite (s : State) (base i : Nat) (ord : BitOrder) (v : Bool) (h : s.wram.wf = true)
    (hr : base + i / 8 < 256) : (s.bitWrite base i ord v).wram.wf = true :=
  Memory.wf_set _ _ _ h hr

theorem State.wf_writeBits (s : State) (base start : Nat) (ord : BitOrder) (l : List (Option Bool))
    (h : s.wram.wf = true) (hr : l = [] ∨ base + (start + l.length - 1) / 8 < 256) :
    (s.writeBits base start ord l).wram.wf = true := by
  induction l generalizing s start with
  | nil => exact h
  | cons b rest ih =>
    have hr : base + (start + (rest.length + 1) - 1) / 8 < 256 := by simpa using hr
    have hrest : rest = [] ∨ base + (start + 1 + rest.length - 1) / 8 < 256 := by
      right; rw [show start + 1 + rest.length - 1 = start + (rest.length + 1) - 1 by omega]; exact hr
    cases b with
    | none => exact ih s _ h hrest
    | some v => exact ih _ _ (State.wf_bitWrite _ _ _ _ _ h (by omega)) hrest

/-! ### Stream bits as the statements name them -/

theorem State.bit_eq (s : State) (base i : Nat) (ord : BitOrder) : s.bit base i ord = bitRead s.byte base i ord := by
  cases ord <;> rfl

/-- Writing a stream, seen through the same stream: the bits written, where they are given, and the others as before. -/
theorem State.bit_writeBits (s : State) (base start : Nat) (ord : BitOrder) (l : List (Option Bool)) (i : Nat) :
    (s.writeBits base start ord l).bit base i ord =
      if start ≤ i ∧ i < start + l.length then (l.getD (i - start) none).getD (s.bit base i ord)
      else s.bit base i ord := by
  have hk := bitPlace_lt ord i
  have hi : 8 * (base + i / 8 - base) + bitPlace ord (bitPlace ord i) = i := by
    cases ord <;> simp only [bitPlace] <;> omega
  rw [State.bit_eq, State.bit_eq, bitRead, State.getLsbD_writeBits _ _ _ _ _ _ _ hk, hi]
  simp [bitRead]

end Sys2Proof.Machine
end

