-- ==== Sys2Proof/Laws/Codec.lean ====
section
/-! SUPPORT. The two line codes on streams given bit by bit: what each code makes of the stream `f 0, f 1, ...` (R160-R162, R180-R182),
and the bytes a stream packs into (R77). -/

namespace Sys2Proof.Machine

/-- The first `n` bits of the stream `f`. -/
def stream (f : Nat → Bool) (n : Nat) : List Bool := (List.range n).map f

theorem stream_succ (f : Nat → Bool) (n : Nat) : stream f (n + 1) = f 0 :: stream (fun i => f (i + 1)) n := by
  simp [stream, List.range_succ_eq_map, Function.comp_def]

@[simp] theorem stream_zero (f : Nat → Bool) : stream f 0 = [] := rfl

@[simp] theorem length_stream (f : Nat → Bool) (n : Nat) : (stream f n).length = n := by simp [stream]

theorem getD_map_range {α : Type} (f : Nat → α) (n i : Nat) (d : α) (h : i < n) :
    ((List.range n).map f).getD i d = f i := by
  simp [List.getD_eq_getElem?_getD, h]

theorem readBits_eq_stream (B : Nat → Byte) (base start n : Nat) (ord : BitOrder) :
    readBits B base start n ord = stream (fun j => bitRead B base (start + j) ord) n := rfl

theorem manDecode_stream (f : Nat → Bool) (n : Nat) :
    manDecode (stream f (2 * n)) = (List.range n).map fun j => manPair (f (2 * j)) (f (2 * j + 1)) := by
  induction n generalizing f with
  | zero => rfl
  | succ n ih =>
    rw [show 2 * (n + 1) = 2 * n + 1 + 1 by ring, stream_succ, stream_succ, manDecode, ih, List.range_succ_eq_map]
    simp [Function.comp_def, Nat.mul_add]

theorem manEncode_stream (f : Nat → Bool) (n : Nat) :
    manEncode (stream f n) = stream (fun p => if p % 2 = 0 then f (p / 2) else !f (p / 2)) (2 * n) := by
  induction n generalizing f with
  | zero => rfl
  | succ n ih =>
    rw [show 2 * (n + 1) = 2 * n + 1 + 1 by ring, stream_succ, manEncode, ih]
    conv_rhs => rw [stream_succ, stream_succ]
    have h1 : ∀ i, (i + 1 + 1) / 2 = i / 2 + 1 := by omega
    have h2 : ∀ i, (i + 1 + 1) % 2 = i % 2 := by omega
    simp [h1, h2]

theorem frmPayload_stream (f : Nat → Bool) (n : Nat) :
    frmPayload (stream f (5 * n)) = stream (fun i => f (5 * (i / 4) + 1 + i % 4)) (4 * n) := by
  induction n generalizing f with
  | zero => rfl
  | succ n ih =>
    rw [show 5 * (n + 1) = 5 * n + 1 + 1 + 1 + 1 + 1 by ring, stream_succ, stream_succ, stream_succ, stream_succ, stream_succ,
      frmPayload, ih, show 4 * (n + 1) = 4 * n + 1 + 1 + 1 + 1 by ring, stream_succ, stream_succ, stream_succ, stream_succ]
    have h : ∀ i, 5 * (i / 4) + 1 + i % 4 + 1 + 1 + 1 + 1 + 1 =
        5 * ((i + 1 + 1 + 1 + 1) / 4) + 1 + (i + 1 + 1 + 1 + 1) % 4 := by omega
    simp only [h]

theorem frmErrors_stream (f : Nat → Bool) (n : Nat) :
    frmErrors (stream f (5 * n)) = (List.range n).countP fun g => !f (5 * g) := by
  induction n generalizing f with
  | zero => rfl
  | succ n ih =>
    rw [show 5 * (n + 1) = 5 * n + 1 + 1 + 1 + 1 + 1 by ring, stream_succ, stream_succ, stream_succ, stream_succ, stream_succ,
      frmErrors, ih, List.range_succ_eq_map, List.countP_cons, List.countP_map]
    have h : ∀ g, 5 * g + 1 + 1 + 1 + 1 + 1 = 5 * (g + 1) := by intro g; ring
    simp only [h, Function.comp_def]
    cases f 0 <;> simp [Nat.add_comm]

theorem frmEncode_stream (f : Nat → Bool) (n : Nat) :
    frmEncode (stream f (4 * n)) =
      stream (fun t => if t % 5 = 0 then true else f (4 * (t / 5) + t % 5 - 1)) (5 * n + 1) := by
  induction n generalizing f with
  | zero => rfl
  | succ n ih =>
    rw [show 4 * (n + 1) = 4 * n + 1 + 1 + 1 + 1 by ring, stream_succ, stream_succ, stream_succ, stream_succ,
      frmEncode, ih, show 5 * (n + 1) + 1 = (5 * n + 1) + 1 + 1 + 1 + 1 + 1 by ring]
    conv_rhs => rw [stream_succ, stream_succ, stream_succ, stream_succ, stream_succ]
    have h : ∀ i, (i + 1 + 1 + 1 + 1 + 1) % 5 = i % 5 := by omega
    have h2 : ∀ i, i % 5 ≠ 0 → 4 * ((i + 1 + 1 + 1 + 1 + 1) / 5) + (i + 1 + 1 + 1 + 1 + 1) % 5 - 1 =
        4 * (i / 5) + i % 5 - 1 + 1 + 1 + 1 + 1 := by omega
    congr 5
    simp only [stream, List.map_inj_left]
    intro i _
    simp only [h]
    split_ifs with h0
    · rfl
    · have := h2 i h0
      rw [h] at this
      rw [this]

theorem packBytes_stream (ord : BitOrder) (f : Nat → Bool) (n : Nat) :
    packBytes ord (stream f (8 * n)) = (List.range n).map fun b =>
      packByte ord (f (8 * b)) (f (8 * b + 1)) (f (8 * b + 2)) (f (8 * b + 3)) (f (8 * b + 4)) (f (8 * b + 5))
        (f (8 * b + 6)) (f (8 * b + 7)) := by
  induction n generalizing f with
  | zero => rfl
  | succ n ih =>
    rw [show 8 * (n + 1) = 8 * n + 1 + 1 + 1 + 1 + 1 + 1 + 1 + 1 by ring, stream_succ, stream_succ, stream_succ, stream_succ,
      stream_succ, stream_succ, stream_succ, stream_succ, packBytes, ih, List.range_succ_eq_map]
    simp [Function.comp_def, Nat.mul_add]

/-- The bits of a packed byte: stream bit `p` is value bit `7 - p` under `msb` and `p` under `lsb` (R77). -/
theorem getLsbD_packByte (ord : BitOrder) (f : Nat → Bool) (p : Nat) (hp : p < 8) :
    (packByte ord (f 0) (f 1) (f 2) (f 3) (f 4) (f 5) (f 6) (f 7)).getLsbD (bitPlace ord p) = f p := by
  have key : ∀ b0 b1 b2 b3 b4 b5 b6 b7 : Bool, ∀ o : Bool, ∀ p : Fin 8,
      (packByte (if o then .msb else .lsb) b0 b1 b2 b3 b4 b5 b6 b7).getLsbD (bitPlace (if o then .msb else .lsb) p) =
        [b0, b1, b2, b3, b4, b5, b6, b7].getD p false := by decide +kernel
  have := key (f 0) (f 1) (f 2) (f 3) (f 4) (f 5) (f 6) (f 7) (decide (ord = .msb)) ⟨p, hp⟩
  have ho : (if decide (ord = BitOrder.msb) = true then BitOrder.msb else .lsb) = ord := by cases ord <;> rfl
  rw [ho] at this
  rw [this]
  interval_cases p <;> rfl

/-! ### The codes of a byte array -/

theorem manDec_eq (B : Nat → Byte) (base len off : Nat) :
    manDec B base len off = (List.range len).map fun j =>
      manPair (bitRead B base (2 * off + 2 * j) .msb) (bitRead B base (2 * off + 2 * j + 1) .msb) := by
  rw [manDec, readBits_eq_stream, manDecode_stream]; rfl

@[simp] theorem length_manDec (B : Nat → Byte) (base len off : Nat) : (manDec B base len off).length = len := by
  simp [manDec_eq]

/-- The error count of MDEC is the number of invalid pairs (R165). -/
theorem manErrors_map (f g : Nat → Bool) (n : Nat) :
    manErrors ((List.range n).map fun j => manPair (f j) (g j)) = (List.range n).countP fun j => f j == g j := by
  simp only [manErrors, List.countP_map, Function.comp_def]
  congr 1; funext j
  cases f j <;> cases g j <;> rfl

/-- The bytes of a framed stream, bit by bit: the first group of a byte is its low nibble, least significant bit first (R180). -/
theorem frmBytes_stream (f : Nat → Bool) (n : Nat) :
    frmBytes (stream f (10 * n)) = (List.range n).map fun b =>
      packByte .lsb (f (10 * b + 1)) (f (10 * b + 2)) (f (10 * b + 3)) (f (10 * b + 4)) (f (10 * b + 6)) (f (10 * b + 7))
        (f (10 * b + 8)) (f (10 * b + 9)) := by
  rw [frmBytes, show 10 * n = 5 * (2 * n) by ring, frmPayload_stream, show 4 * (2 * n) = 8 * n by ring, packBytes_stream]
  refine List.map_congr_left fun b _ => ?_
  have h : ∀ q, q < 8 → 5 * ((8 * b + q) / 4) + 1 + (8 * b + q) % 4 = 10 * b + q + (if q < 4 then 1 else 2) := by
    intro q hq; split_ifs <;> omega
  have h0 := h 0 (by omega)
  simp only [Nat.add_zero] at h0
  rw [h0, h 1 (by omega), h 2 (by omega), h 3 (by omega), h 4 (by omega), h 5 (by omega), h 6 (by omega), h 7 (by omega)]
  rfl

theorem length_frmBytes_stream (f : Nat → Bool) (n : Nat) : (frmBytes (stream f (10 * n))).length = n := by
  simp [frmBytes_stream]

/-- Bit `q` of byte `b` of a framed stream's payload. -/
theorem getLsbD_frmBytes (f : Nat → Bool) (n b q : Nat) (hb : b < n) (hq : q < 8) :
    ((frmBytes (stream f (10 * n))).getD b 0).getLsbD q = f (10 * b + q + (if q < 4 then 1 else 2)) := by
  rw [frmBytes_stream, getD_map_range _ _ _ _ hb]
  have := getLsbD_packByte .lsb (fun q => f (10 * b + q + (if q < 4 then 1 else 2))) q hq
  rw [show bitPlace .lsb q = q by simp [bitPlace]; omega] at this
  exact this

end Sys2Proof.Machine
end

