-- ==== Sys2Proof/Laws/Commands.lean ====
section
/-! SUPPORT. What the shared operations of the commands can do, said once: the two ends of a command (R109, R260), the range checks (R72,
R73), and each meaning as the one state it completes in. -/

namespace Sys2Proof.Machine

open Sys2Proof

/-- A command guarded by its range check completes or raises `RANGE`: these two, and nothing else. -/
theorem whenInRange_next (ok : Bool) (s op t : State) (h : whenInRange ok s op = .next t) :
    (ok = true ∧ t = { op with cerr := .ok }) ∨ (ok = false ∧ t = { s with cerr := .range }) := by
  cases ok
  · right; simp only [whenInRange, raiseCmdError, Bool.false_eq_true, if_false, Host.Outcome.next.injEq] at h
    exact ⟨rfl, h.symm⟩
  · left; simp only [whenInRange, complete, if_true, Host.Outcome.next.injEq] at h
    exact ⟨rfl, h.symm⟩

theorem whenInRange_true (ok : Bool) (s op : State) (h : ok = true) :
    whenInRange ok s op = .next { op with cerr := .ok } := by
  subst h; rfl

theorem whenInRange_false (ok : Bool) (s op : State) (h : ok = false) :
    whenInRange ok s op = .next { s with cerr := .range } := by
  subst h; rfl

/-- No command stops: a guarded command ends in a next state. -/
theorem whenInRange_exists (ok : Bool) (s op : State) : ∃ t, whenInRange ok s op = .next t := by
  cases ok
  · exact ⟨_, rfl⟩
  · exact ⟨_, rfl⟩

theorem inRange_iff (a : Nat) : inRange a = true ↔ a < 256 := by simp [inRange]

theorem bytesInRange_iff (a n : Nat) : bytesInRange a n = true ↔ (0 < n → a + n - 1 < 256) := by
  simp only [bytesInRange, Bool.or_eq_true, decide_eq_true_eq, inRange_iff]; omega

theorem bitsInRange_iff (base start n : Nat) :
    bitsInRange base start n = true ↔ (0 < n → base + (start + n - 1) / 8 < 256) := by
  simp only [bitsInRange, Bool.or_eq_true, decide_eq_true_eq, inRange_iff]; omega

/-- The byte check is the check of every byte (R73). -/
theorem bytesInRange_iff_forall (a n : Nat) : bytesInRange a n = true ↔ ∀ j, j < n → a + j < 256 := by
  rw [bytesInRange_iff]
  constructor
  · intro h j hj; have := h (by omega); omega
  · intro h hn; have := h (n - 1) (by omega); omega

/-- The stream check is the check of the byte of every stream bit (R73). -/
theorem bitsInRange_iff_forall (base start n : Nat) :
    bitsInRange base start n = true ↔ ∀ p, start ≤ p → p < start + n → base + p / 8 < 256 := by
  rw [bitsInRange_iff]
  constructor
  · intro h p h1 h2
    have := h (by omega)
    have : p / 8 ≤ (start + n - 1) / 8 := Nat.div_le_div_right (by omega)
    omega
  · intro h hn; exact h (start + n - 1) (by omega) (by omega)

/-- Every byte of WRAM of a state is decided by its memory and the number of resets. -/
theorem State.byte_congr (s t : State) (h : t.wram = s.wram) (hr : t.resets = s.resets) (a : Nat) :
    t.byte a = s.byte a := by
  simp [State.byte, h, hr]

end Sys2Proof.Machine
end

