-- ==== Sys2Proof/Laws/Receive.lean ====
section
/-! SUPPORT. The receive pipeline, said once over the bits of the raw block: `decodeBlock_eq` is all that `Decode(RXBUF)` can answer (R230,
R234, R266). -/

namespace Sys2Proof.Machine

open Sys2Proof

/-- The first `n` bytes of the frame a raw block carries (R234). -/
def carriedBytes (buf : Vector Byte 60) (n : Nat) : List Byte := frmBytes (stream (frameBit buf) (10 * n))

@[simp] theorem length_carriedBytes (buf : Vector Byte 60) (n : Nat) : (carriedBytes buf n).length = n :=
  length_frmBytes_stream _ _

theorem getLsbD_carriedBytes (buf : Vector Byte 60) (n b q : Nat) (hb : b < n) (hq : q < 8) :
    ((carriedBytes buf n).getD b 0).getLsbD q = carriedBit buf b q :=
  getLsbD_frmBytes _ _ _ _ hb hq

/-- Two lists of bytes with the same bits are the same. -/
theorem bytes_ext (d e : List Byte) (hl : d.length = e.length)
    (h : ∀ b q, b < d.length → q < 8 → (d.getD b 0).getLsbD q = (e.getD b 0).getLsbD q) : d = e := by
  refine List.ext_getElem hl fun b h1 h2 => ?_
  refine BitVec.eq_of_getLsbD_eq fun q hq => ?_
  have := h b q h1 hq
  simpa [List.getD_eq_getElem?_getD, h1, h2] using this

/-- The pairs that the decode reads from pair offset `2 + m` on are those of decoded bits `m, m + 1, ...` (R234). -/
theorem manDec_buf (buf : Vector Byte 60) (len m : Nat) :
    manDec (bufByte buf) 0 len (2 + m) = (List.range len).map fun j =>
      manPair (airBit buf (4 + 2 * (m + j))) (airBit buf (5 + 2 * (m + j))) := by
  rw [manDec_eq]
  refine List.map_congr_left fun j _ => ?_
  rw [show 2 * (2 + m) + 2 * j = 4 + 2 * (m + j) by ring, show 4 + 2 * (m + j) + 1 = 5 + 2 * (m + j) by ring]
  simp [bitRead, bufByte, airBit, bitPlace]

theorem manErrors_buf (buf : Vector Byte 60) (len m : Nat) :
    manErrors (manDec (bufByte buf) 0 len (2 + m)) = 0 ↔ ∀ t, m ≤ t → t < m + len → badPair buf t = false := by
  rw [manDec_buf, manErrors_map (fun j => airBit buf (4 + 2 * (m + j))) (fun j => airBit buf (5 + 2 * (m + j))),
    List.countP_eq_zero]
  simp only [List.mem_range, badPair, Bool.not_eq_true]
  constructor
  · intro h t h1 h2
    have := h (t - m) (by omega)
    rwa [show m + (t - m) = t by omega] at this
  · intro h j hj; exact h (m + j) (by omega) (by omega)

/-- Where no pair is invalid, the scratch holds the decoded bits. -/
theorem scratchBits_buf (buf : Vector Byte 60) (len m : Nat)
    (h : ∀ t, m ≤ t → t < m + len → badPair buf t = false) :
    scratchBits (manDec (bufByte buf) 0 len (2 + m)) = stream (fun j => frameBit buf (m + j)) len := by
  rw [manDec_buf, scratchBits, stream, List.map_map]
  refine List.map_congr_left fun j hj => ?_
  have := h (m + j) (by omega) (by simp at hj; omega)
  simp only [badPair, Function.comp_apply, frameBit] at this ⊢
  generalize airBit buf (4 + 2 * (m + j)) = a at *
  generalize airBit buf (5 + 2 * (m + j)) = b at *
  cases a <;> cases b <;> simp_all [manPair]

theorem frmErrors_buf (buf : Vector Byte 60) (n m : Nat) :
    frmErrors (stream (fun j => frameBit buf (5 * m + j)) (5 * n)) = 0 ↔
      ∀ g, m ≤ g → g < m + n → frameBit buf (5 * g) = true := by
  rw [frmErrors_stream, List.countP_eq_zero]
  simp only [List.mem_range, Bool.not_eq_true', Bool.not_eq_false]
  constructor
  · intro h g h1 h2
    have := h (g - m) (by omega)
    rwa [show 5 * m + 5 * (g - m) = 5 * g by omega] at this
  · intro h g hg
    rw [show 5 * m + 5 * g = 5 * (m + g) by ring]; exact h (m + g) (by omega) (by omega)

/-- The first six bytes and the extra ones are the bytes of one framed stream (R182). -/
theorem carriedBytes_append (buf : Vector Byte 60) (x : Nat) :
    carriedBytes buf 6 ++ frmBytes (stream (fun j => frameBit buf (60 + j)) (10 * x)) = carriedBytes buf (6 + x) := by
  refine bytes_ext _ _ (by simp [length_frmBytes_stream]) fun b q hb hq => ?_
  simp only [List.length_append, length_carriedBytes, length_frmBytes_stream] at hb
  rw [getLsbD_carriedBytes _ _ _ _ hb hq]
  rcases Nat.lt_or_ge b 6 with h6 | h6
  · rw [List.getD_append _ _ _ _ (by simpa using h6), getLsbD_carriedBytes _ _ _ _ h6 hq]
  · rw [List.getD_append_right _ _ _ _ (by simpa using h6), length_carriedBytes, getLsbD_frmBytes _ _ _ _ (by omega) hq, carriedBit]
    congr 1; omega

/-- The length class of the frame a block carries (R201, R234). -/
def carriedClass (buf : Vector Byte 60) : BitVec 2 := ((carriedBytes buf 6).getD 4 0).extractLsb' 6 2

theorem extraBytes_eq_some (buf : Vector Byte 60) (x : Nat) :
    Config.extraBytes (carriedClass buf) = some x ↔ ClassExtra (carriedBit buf 4 7) (carriedBit buf 4 6) x := by
  rw [← getLsbD_carriedBytes buf 6 4 7 (by omega) (by omega), ← getLsbD_carriedBytes buf 6 4 6 (by omega) (by omega), carriedClass]
  generalize (carriedBytes buf 6).getD 4 0 = v
  have key : ∀ v : Byte, Config.extraBytes (v.extractLsb' 6 2) =
      if v.getLsbD 7 then (if v.getLsbD 6 then none else some 3) else if v.getLsbD 6 then some 1 else some 0 := by
    decide +kernel
  rw [key]
  cases v.getLsbD 7 <;> cases v.getLsbD 6 <;> simp [ClassExtra, eq_comm]

/-- All that the decode pipeline can answer: the first failing stage, or the checksum stage on the carried bytes. -/
theorem decodeBlock_eq (buf : Vector Byte 60) :
    decodeBlock buf =
      if ¬ ∀ t, 0 ≤ t → t < 0 + 60 → badPair buf t = false then .discard .man1
      else if ¬ ∀ g, 0 ≤ g → g < 0 + 12 → frameBit buf (5 * g) = true then .discard .frm1
      else match Config.extraBytes (carriedClass buf) with
        | none => .discard .lclass
        | some x =>
          if ¬ ∀ t, 60 ≤ t → t < 60 + 10 * x → badPair buf t = false then .discard .man2
          else if ¬ ∀ g, 12 ≤ g → g < 12 + 2 * x → frameBit buf (5 * g) = true then .discard .frm2
          else checksumStage (carriedBytes buf (6 + x)) := by
  rw [decodeBlock]
  have hm := manErrors_buf buf 60 0
  by_cases h1 : ∀ t, 0 ≤ t → t < 0 + 60 → badPair buf t = false
  · rw [if_neg (not_not.mpr h1), if_neg (not_not.mpr (hm.mpr h1))]
    have hs : (scratchBits (manDec (bufByte buf) 0 Config.s1Bits Config.s1Offset)).take (10 * Config.s1FrameBytes) =
        stream (fun j => frameBit buf (5 * 0 + j)) (5 * 12) := by
      have := scratchBits_buf buf 60 0 h1
      simp only [Nat.zero_add, Nat.add_zero, Nat.mul_zero] at this ⊢
      rw [this, List.take_of_length_le (by simp [Config.s1FrameBytes])]
    rw [hs]
    have hf := frmErrors_buf buf 12 0
    by_cases h2 : ∀ g, 0 ≤ g → g < 0 + 12 → frameBit buf (5 * g) = true
    · rw [if_neg (not_not.mpr h2), if_neg (not_not.mpr (hf.mpr h2))]
      have hb : frmBytes (stream (fun j => frameBit buf (5 * 0 + j)) (5 * 12)) = carriedBytes buf 6 := by
        simp [carriedBytes]
      rw [hb, lengthStage]
      change (match Config.extraBytes (carriedClass buf) with
        | none => DecodeResult.discard .lclass
        | some 0 => checksumStage (carriedBytes buf 6)
        | some x => extraStage buf (carriedBytes buf 6) x) = _
      cases hx : Config.extraBytes (carriedClass buf) with
      | none => rfl
      | some x =>
        cases x with
        | zero =>
          have e1 : ∀ t, 60 ≤ t → t < 60 + 10 * 0 → badPair buf t = false := fun t h h' => by omega
          have e2 : ∀ g, 12 ≤ g → g < 12 + 2 * 0 → frameBit buf (5 * g) = true := fun g h h' => by omega
          simp only [if_neg (not_not.mpr e1), if_neg (not_not.mpr e2), Nat.add_zero]
        | succ x =>
          simp only []
          rw [extraStage]
          have hm2 := manErrors_buf buf (10 * (x + 1)) 60
          by_cases h3 : ∀ t, 60 ≤ t → t < 60 + 10 * (x + 1) → badPair buf t = false
          · rw [if_neg (not_not.mpr h3), if_neg (not_not.mpr (hm2.mpr h3))]
            have hs2 := scratchBits_buf buf (10 * (x + 1)) 60 h3
            have hf2 := frmErrors_buf buf (2 * (x + 1)) 12
            rw [show 5 * (2 * (x + 1)) = 10 * (x + 1) by ring] at hf2
            simp only [Config.s2BitsPerByte, Config.s2Offset]
            rw [hs2]
            by_cases h4 : ∀ g, 12 ≤ g → g < 12 + 2 * (x + 1) → frameBit buf (5 * g) = true
            · rw [if_neg (not_not.mpr h4), if_neg (not_not.mpr (hf2.mpr h4)), carriedBytes_append]
            · rw [if_pos h4, if_pos (fun h => h4 (hf2.mp h))]
          · rw [if_pos h3, if_pos (fun h => h3 (hm2.mp h))]
    · rw [if_pos h2, if_pos (fun h => h2 (hf.mp h))]
  · rw [if_pos h1, if_pos (fun h => h1 (hm.mp h))]

/-- The checksum stage delivers the bytes it was given, or discards them as `CRC`. -/
theorem checksumStage_eq (d : List Byte) :
    checksumStage d = .frame (frameOf d) d.length ∧ crc8 d.dropLast = d.getLastD 0 ∨
      checksumStage d = .discard .crc ∧ crc8 d.dropLast ≠ d.getLastD 0 := by
  unfold checksumStage
  split_ifs with h
  · exact .inl ⟨rfl, h⟩
  · exact .inr ⟨rfl, h⟩

/-! ### The steps of a poll and of an append -/

/-- The resync does nothing, or takes the cursor back and asks the radio once (R236). -/
theorem State.resync_cases (s : State) :
    s.resyncDue = false ∧ s.resync = s ∨
      s.resyncDue = true ∧ s.resync = { s with cursor := 0, radioEvents := s.radioEvents ++ [.rearmRx] } := by
  unfold State.resync
  cases s.resyncDue
  · exact .inl ⟨rfl, rfl⟩
  · exact .inr ⟨rfl, rfl⟩

/-- When the resync is due, over naturals (R236, R237). -/
theorem State.resyncDue_iff (s : State) :
    s.resyncDue = true ↔ s.cursor ≠ 0 ∧ (s.now.toNat + (2 ^ 32 - s.lastact.toNat)) % 2 ^ 32 > 600 := by
  have : (s.now - s.lastact).toNat = (s.now.toNat + (2 ^ 32 - s.lastact.toNat)) % 2 ^ 32 := by
    rw [BitVec.toNat_sub, Nat.add_comm]
  unfold State.resyncDue
  rw [this]
  simp [← BitVec.toNat_inj]

/-- The decode of a poll does nothing, discards the waiting block, or delivers its frame (R226, R232, R233). -/
theorem State.decodeStep_cases (s : State) :
    s.rawReady = false ∧ s.decodeStep = s ∨
      s.rawReady = true ∧
        ((∃ oc, decodeBlock s.rxbuf = .discard oc ∧ s.decodeStep = { s with rawReady := false, outcome := oc }) ∨
          ∃ f n, decodeBlock s.rxbuf = .frame f n ∧
            s.decodeStep = { s with
              rawReady := false, outcome := .ok, lastFrame := f, lastlen := BitVec.ofNat 4 n, pktReady := true }) := by
  unfold State.decodeStep
  cases hr : s.rawReady
  · exact .inl ⟨rfl, rfl⟩
  · right
    refine ⟨rfl, ?_⟩
    cases hd : decodeBlock s.rxbuf with
    | discard oc => exact .inl ⟨oc, rfl, rfl⟩
    | frame f n => exact .inr ⟨f, n, rfl, rfl⟩

/-- The length of the frame's bytes, at the default of `MAX_FRAME_BYTES` (R8). -/
theorem length_frame_toList (f : Vector Byte Config.maxFrameBytes) : f.toList.length = 9 := Vector.length_toList

/-- One byte of the frame buffer (R230). -/
theorem getElem_frameOf (bytes : List Byte) (j : Nat) (h : j < 9) : (frameOf bytes)[j] = bytes.getD j 0 := by
  simp [frameOf]

/-- One byte of `RXBUF` after an append (R222). -/
theorem State.getElem_appended (s : State) (k j : Nat) (h : j < 60) :
    (s.appended k)[j] =
      if s.cursor.toNat ≤ j ∧ j < s.cursor.toNat + k then s.byte (s.a0 + (j - s.cursor.toNat)) else s.rxbuf[j] := by
  simp [State.appended]

/-- The cursor after an append, before the end of the command (R222). -/
theorem State.appendBytes_cursor_toNat (s : State) (k : Nat) (h : s.cursor.toNat + k ≤ 60) :
    (s.appendBytes k).cursor.toNat = s.cursor.toNat + k := by
  simp only [State.appendBytes, BitVec.toNat_ofNat]; omega

end Sys2Proof.Machine
end

