-- ==== Sys2Proof/Laws/Bus.lean ====
section
/-! SUPPORT. What a step can do, said once: the events the host's queue holds, and where an access goes (R74, R75). -/

namespace Sys2Proof.Machine

theorem step_nil (s : State) (h : s.pending = []) : step s = .next s := by
  rw [step, nextEvent, h]

theorem step_cons (s : State) (e : BusEvent) (rest : List BusEvent) (h : s.pending = e :: rest) :
    step s = busEvent e { s with pending := rest } := by
  rw [step, nextEvent, h]

/-- An access reaches a CSR exactly where it is a word at a multiple of 4 in the CSR region. -/
theorem locate_eq_csr (width : AccessWidth) (off o : Nat) :
    locate width off = .ok (.csr o) ↔ width = .word ∧ off < 0x100 ∧ off % 4 = 0 ∧ o = off := by
  unfold locate
  split_ifs with h1 h2 h3 h4 h5
  all_goals simp only [Except.ok.injEq, Location.csr.injEq, reduceCtorEq, false_iff, Config.wramWindow, Config.windowBytes,
    Decidable.not_not] at *
  · exact fun h => h2 h.1
  · exact fun h => h3 h.2.2.1
  · exact ⟨fun h => ⟨h2, h1, h3, h.symm⟩, fun h => h.2.2.2.symm⟩
  · exact fun h => h1 h.2.1
  · exact fun h => h1 h.2.1
  · exact fun h => h1 h.2.1

/-- An access reaches a byte of WRAM exactly where it is a byte access in the WRAM region. -/
theorem locate_eq_wram (width : AccessWidth) (off a : Nat) :
    locate width off = .ok (.wram a) ↔ width = .byte ∧ a < 256 ∧ off = 0x100 + a := by
  unfold locate
  split_ifs with h1 h2 h3 h4 h5
  all_goals simp only [Except.ok.injEq, Location.wram.injEq, reduceCtorEq, false_iff, Config.wramWindow, Config.windowBytes,
    Decidable.not_not] at *
  · intro h; omega
  · intro h; omega
  · intro h; omega
  · exact fun h => h5 h.1
  · exact ⟨fun h => ⟨h5, by omega, by omega⟩, fun h => by omega⟩
  · intro h; omega

end Sys2Proof.Machine
end

