-- ==== Sys2Proof/Laws/PerInstr.lean ====
section
/-! SUPPORT. The statements made of every command, one lemma per constructor: the bits of its opcode-table row are read back as it, and
it is well formed. -/

namespace Sys2Proof.Laws.TableBits

open Sys2Proof

/-- The 32 bits of the command's word are read back as the command, and its fields break no clause of R104. -/
def Statement (i : Instr) : Prop := decodeTableWord 32 (encode i).toNat = some i ∧ i.wf = true

theorem setbit : Statement .setbit := by unfold Statement; decide

theorem setbitL : Statement .setbitL := by unfold Statement; decide

theorem clrbit : Statement .clrbit := by unfold Statement; decide

theorem clrbitL : Statement .clrbitL := by unfold Statement; decide

theorem defbit : Statement .defbit := by unfold Statement; decide

theorem defbitL : Statement .defbitL := by unfold Statement; decide

theorem getbit : Statement .getbit := by unfold Statement; decide

theorem getbitL : Statement .getbitL := by unfold Statement; decide

theorem setnib : Statement .setnib := by unfold Statement; decide

theorem setnibL : Statement .setnibL := by unfold Statement; decide

theorem getnib : Statement .getnib := by unfold Statement; decide

theorem getnibL : Statement .getnibL := by unfold Statement; decide

theorem mdec : Statement .mdec := by unfold Statement; decide

theorem mdecA : Statement .mdecA := by unfold Statement; decide

theorem menc : Statement .menc := by unfold Statement; decide

theorem fdec : Statement .fdec := by unfold Statement; decide

theorem fdecA : Statement .fdecA := by unfold Statement; decide

theorem fenc : Statement .fenc := by unfold Statement; decide

theorem crc8 : Statement .crc8 := by unfold Statement; decide

theorem crcchk : Statement .crcchk := by unfold Statement; decide

theorem rxappend : Statement .rxappend := by unfold Statement; decide

theorem rxpoll : Statement .rxpoll := by unfold Statement; decide

theorem rxget : Statement .rxget := by unfold Statement; decide

end Sys2Proof.Laws.TableBits
end

