-- ==== Sys2Proof/Tests/Slice0.lean ====
section
/-! SUPPORT. Tests on fixed values: the checks of a command word, the 23 words of R108 written out, the vectors of 95_test_vectors.md (named
in each comment), and for every statement with hypotheses the witnesses that meet them, at the boundary of each clause. -/

namespace Sys2Proof.Tests

open Sys2Proof Sys2Proof.Machine

-- One theorem after the other: the many evaluations here would else each hold a thread at once.
set_option Elab.async false

/-! ### Helpers -/

/-- Memory that lists these bytes from address `a` on. -/
def bytesAt (a : Nat) (l : List Nat) : Memory := l.mapIdx fun i v => (a + i, BitVec.ofNat 8 v)

/-- A state after reset but for its WRAM and the four operand registers. -/
def st (m : Memory) (a0 a1 a2 a3 : Nat) : State :=
  { State.reset with
    wram := m
    arg0 := BitVec.ofNat 32 a0, arg1 := BitVec.ofNat 32 a1, arg2 := BitVec.ofNat 32 a2, arg3 := BitVec.ofNat 32 a3 }

/-- The outcome is a next state of which `p` holds. -/
def nextWith (o : Host.Outcome State Fault Refusal) (p : State → Bool) : Bool :=
  match o with
  | .next t => p t
  | .fault _ => false
  | .refused _ => false

/-- The outcome is a refusal. -/
def isRefused (o : Host.Outcome State Fault Refusal) : Bool :=
  match o with
  | .next _ => false
  | .fault _ => false
  | .refused _ => true

/-- The state after, where there is one. -/
def after (o : Host.Outcome State Fault Refusal) : State :=
  match o with
  | .next t => t
  | .fault _ => State.reset
  | .refused _ => State.reset

/-- These bytes stand from address `a` on. -/
def State.has (t : State) (a : Nat) (l : List Nat) : Bool := t.readBytes a l.length = l.map (BitVec.ofNat 8)

/-- A raw block: these bytes, then 0x55 (section 2.5 of the vectors). -/
def block (l : List Nat) : Vector Byte 60 := Vector.ofFn fun j : Fin 60 => BitVec.ofNat 8 (l.getD j.val 0x55)

/-- A nine-byte frame buffer. -/
def frame (l : List Nat) : Vector Byte 9 := Vector.ofFn fun j : Fin 9 => BitVec.ofNat 8 (l.getD j.val 0)

/-- The short frame and its block, of section 2.5. -/
def frameFS : Vector Byte 9 := frame [0x40, 0x12, 0x34, 0x51, 0x01, 0x7B]
def blockBS : Vector Byte 60 :=
  block [0xA9, 0x56, 0x59, 0x99, 0x69, 0x59, 0x66, 0xA5, 0xA5, 0x69, 0x9A, 0x56, 0x55, 0xA9, 0xAA, 0x99]

/-- The medium frame and its block. -/
def frameFM : Vector Byte 9 := frame [0x41, 0x12, 0x34, 0x52, 0x70, 0x00, 0x79]
def blockBM : Vector Byte 60 :=
  block [0xAA, 0x56, 0x59, 0x99, 0x69, 0x59, 0x66, 0xA5, 0x99, 0x69, 0x99, 0x56, 0xA9, 0x95, 0x65, 0x5A, 0x5A, 0xA9, 0x95]

/-- The long frame and its block. -/
def frameFL : Vector Byte 9 := frame [0x42, 0x12, 0x34, 0x52, 0xB0, 0x06, 0x01, 0x00, 0xED]
def blockBL : Vector Byte 60 :=
  block [0xA9, 0x96, 0x59, 0x99, 0x69, 0x59, 0x66, 0xA5, 0x99, 0x69, 0x99, 0x56, 0xA6, 0x9A, 0x65, 0x5A, 0x56, 0x55, 0x95, 0x65, 0x5A,
    0x6A, 0x6A, 0x95]

/-- The block of the invalid length class, and the one with a bad checksum. -/
def blockBX : Vector Byte 60 :=
  block [0xA9, 0x56, 0x59, 0x99, 0x69, 0x59, 0x66, 0xA5, 0xA5, 0x69, 0x9A, 0x56, 0x5A, 0xA5, 0x6A, 0x69]
def blockBC : Vector Byte 60 :=
  block [0xA9, 0x56, 0x59, 0x99, 0x69, 0x59, 0x66, 0xA5, 0xA5, 0x69, 0x9A, 0x56, 0x55, 0x99, 0xAA, 0x99]

/-- A state whose raw block waits to be decoded. -/
def waiting (buf : Vector Byte 60) : State := { State.reset with rxbuf := buf, rawReady := true }

/-- A state whose next host access is this one. -/
def facing (e : BusEvent) : State := { State.reset with pending := [e] }

/-! ### Well-formedness: one ill-formed word for each check (R104) -/

theorem test_wf_low_reserved : (CmdFields.mk 0x01 1 false false 0).lowReservedZero = false ∧
    (CmdFields.mk 0x01 1 false false 0).wf = false := by decide

theorem test_wf_high_reserved : (CmdFields.mk 0x01 0 false false 0x200000).highReservedZero = false ∧
    (CmdFields.mk 0x01 0 false false 0x200000).wf = false := by decide

theorem test_wf_opcode : (CmdFields.mk 0x13 0 false false 0).opcodeKnown = false ∧ (CmdFields.mk 0x13 0 false false 0).wf = false := by
  decide

theorem test_wf_ord : (CmdFields.mk 0x08 0 true false 0).ordLegal = false ∧ (CmdFields.mk 0x08 0 true false 0).wf = false := by
  decide

theorem test_wf_acc : (CmdFields.mk 0x06 0 false true 0).accLegal = false ∧ (CmdFields.mk 0x06 0 false true 0).wf = false := by
  decide

/-- The decoder refuses the same words, each by name. -/
theorem test_decode_refuses : decodeWord 0x00000021#32 = .error .lowReserved ∧ decodeWord 0x80000001#32 = .error .highReserved ∧
    decodeWord 0x00000013#32 = .error .opcode ∧ decodeWord 0x00000108#32 = .error .ordNotAllowed ∧
    decodeWord 0x00000206#32 = .error .accNotAllowed := by
  refine ⟨?_, ?_, ?_, ?_, ?_⟩ <;> rfl

/-! ### Decoding: the words of R108 written out -/

theorem test_decode_bits : decodeWord 0x00000001#32 = .ok .setbit ∧ decodeWord 0x00000101#32 = .ok .setbitL ∧
    decodeWord 0x00000002#32 = .ok .clrbit ∧ decodeWord 0x00000102#32 = .ok .clrbitL ∧
    decodeWord 0x00000003#32 = .ok .defbit ∧ decodeWord 0x00000103#32 = .ok .defbitL ∧
    decodeWord 0x00000004#32 = .ok .getbit ∧ decodeWord 0x00000104#32 = .ok .getbitL := by
  refine ⟨?_, ?_, ?_, ?_, ?_, ?_, ?_, ?_⟩ <;> rfl

theorem test_decode_nibbles : decodeWord 0x00000005#32 = .ok .setnib ∧ decodeWord 0x00000105#32 = .ok .setnibL ∧
    decodeWord 0x00000006#32 = .ok .getnib ∧ decodeWord 0x00000106#32 = .ok .getnibL := by
  refine ⟨?_, ?_, ?_, ?_⟩ <;> rfl

theorem test_decode_codecs : decodeWord 0x00000008#32 = .ok .mdec ∧ decodeWord 0x00000208#32 = .ok .mdecA ∧
    decodeWord 0x00000009#32 = .ok .menc ∧ decodeWord 0x0000000A#32 = .ok .fdec ∧ decodeWord 0x0000020A#32 = .ok .fdecA ∧
    decodeWord 0x0000000B#32 = .ok .fenc := by
  refine ⟨?_, ?_, ?_, ?_, ?_, ?_⟩ <;> rfl

theorem test_decode_checksum_and_receive : decodeWord 0x0000000C#32 = .ok .crc8 ∧ decodeWord 0x0000000D#32 = .ok .crcchk ∧
    decodeWord 0x00000010#32 = .ok .rxappend ∧ decodeWord 0x00000011#32 = .ok .rxpoll ∧
    decodeWord 0x00000012#32 = .ok .rxget := by
  refine ⟨?_, ?_, ?_, ?_, ?_⟩ <;> rfl

/-! ### One step of each command -/

/-- B1 -/
theorem test_setbit : nextWith (exec .setbit (st (bytesAt 0x80 [0, 0]) 0x80 0 13 0)) (fun t => State.has t 0x80 [0x00, 0x04]) = true := by
  decide +kernel

/-- B2 -/
theorem test_setbitL : nextWith (exec .setbitL (st (bytesAt 0x80 [0, 0]) 0x80 0 13 0)) (fun t => State.has t 0x80 [0x00, 0x20]) = true := by
  decide +kernel

/-- B7 -/
theorem test_clrbit : nextWith (exec .clrbit (st (bytesAt 0x80 [0xFF]) 0x80 0 7 0)) (fun t => State.has t 0x80 [0xFE]) = true := by
  decide +kernel

/-- B7 -/
theorem test_clrbitL : nextWith (exec .clrbitL (st (bytesAt 0x80 [0xFF]) 0x80 0 7 0)) (fun t => State.has t 0x80 [0x7F]) = true := by
  decide +kernel

/-- B9: only `ARG3[0]` counts -/
theorem test_defbit : nextWith (exec .defbit (st (bytesAt 0x80 [0xFF]) 0x80 0 0 2)) (fun t => State.has t 0x80 [0x7F]) = true := by
  decide +kernel

/-- B10 -/
theorem test_defbitL : nextWith (exec .defbitL (st (bytesAt 0x80 [0, 0]) 0x80 0 9 1)) (fun t => State.has t 0x80 [0x00, 0x02]) = true := by
  decide +kernel

/-- B11 -/
theorem test_getbit : nextWith (exec .getbit (st (bytesAt 0x80 [0x12]) 0x80 0 3 0)) (fun t => t.result = 1) = true := by
  decide +kernel

/-- B11 -/
theorem test_getbitL : nextWith (exec .getbitL (st (bytesAt 0x80 [0x12]) 0x80 0 3 0)) (fun t => t.result = 0) = true := by
  decide +kernel

/-- B15 -/
theorem test_setnib : nextWith (exec .setnib (st (bytesAt 0x80 [0x00]) 0x80 0 0 0x1F)) (fun t => State.has t 0x80 [0xF0]) = true := by
  decide +kernel

/-- B14 -/
theorem test_setnibL : nextWith (exec .setnibL (st (bytesAt 0x80 [0x12, 0x34]) 0x80 0 3 9)) (fun t => State.has t 0x80 [0x12, 0x94]) = true := by
  decide +kernel

/-- B18 -/
theorem test_getnib : nextWith (exec .getnib (st (bytesAt 0xFF [0xAB]) 0 0 511 0)) (fun t => t.result = 0xB) = true := by
  decide +kernel

/-- B17 -/
theorem test_getnibL : nextWith (exec .getnibL (st (bytesAt 0x80 [0xA5, 0x3C]) 0x80 0 1 0)) (fun t => t.result = 0xA) = true := by
  decide +kernel

/-- M2: the bits of invalid pairs are not written -/
theorem test_mdec : nextWith (exec .mdec (st (bytesAt 0 [0x6C] ++ bytesAt 0x40 [0xFF]) 0 0x40 4 0)) (fun t => State.has t 0x40 [0x7F] && t.errcnt = 2) = true := by
  decide +kernel

/-- M4 -/
theorem test_mdec_offset : nextWith (exec .mdec (st (bytesAt 0 [0xA9, 0x56, 0x59, 0x99] ++ bytesAt 0x40 [0]) 0 0x40 8 2)) (fun t => State.has t 0x40 [0x84] && t.errcnt = 0) = true := by
  decide +kernel

/-- M11 -/
theorem test_mdecA : nextWith (exec .mdecA { st (bytesAt 0 [0x6C] ++ bytesAt 0x40 [0xFF]) 0 0x40 4 0 with errcnt := 0xFFFF })
    (fun t => t.errcnt = 1) = true := by
  decide +kernel

/-- E2: an odd start and the bits around it -/
theorem test_menc : nextWith (exec .menc (st (bytesAt 0 [0xF0] ++ bytesAt 0x40 [0xA0, 0xA0]) 0 0x40 4 4)) (fun t => State.has t 0x40 [0xAA, 0xA0]) = true := by
  decide +kernel

/-- E5 -/
theorem test_menc_in_place : nextWith (exec .menc (st (bytesAt 0x80 [0xA5, 0x00]) 0x80 0x80 8 0)) (fun t => State.has t 0x80 [0x99, 0x66]) = true := by
  decide +kernel

/-- F3: the payload of a group with a bad marker is copied -/
theorem test_fdec : nextWith (exec .fdec (st (bytesAt 0 [0x80, 0xA0] ++ bytesAt 0x40 [0]) 0 0x40 1 0)) (fun t => State.has t 0x40 [0x40] && t.errcnt = 1) = true := by
  decide +kernel

/-- F7: the trailing marker is not read -/
theorem test_fdec_trailing : nextWith (exec .fdec (st (bytesAt 0 [0xD5, 0x67, 0xC0] ++ bytesAt 0x40 [0, 0]) 0 0x40 2 0)) (fun t => State.has t 0x40 [0xA5, 0x3C] && t.errcnt = 0) = true := by
  decide +kernel

/-- F11's second command -/
theorem test_fdecA : nextWith (exec .fdecA { st (bytesAt 0x10 [0, 0] ++ bytesAt 0x41 [0xFF]) 0x10 0x41 1 0 with errcnt := 5 })
    (fun t => State.has t 0x41 [0] && t.errcnt = 7) = true := by
  decide +kernel

/-- G2: the bits after the trailing marker stay -/
theorem test_fenc : nextWith (exec .fenc (st (bytesAt 0 [0x40] ++ bytesAt 0x40 [0xFF, 0xFF]) 0 0x40 1 0)) (fun t => State.has t 0x40 [0x84, 0xBF]) = true := by
  decide +kernel

/-- G3 -/
theorem test_fenc_zero : nextWith (exec .fenc (st (bytesAt 0x40 [0]) 0 0x40 0 0)) (fun t => State.has t 0x40 [0x80]) = true := by
  decide +kernel

/-- K2 -/
theorem test_crc8 : nextWith (exec .crc8 (st (bytesAt 0 [0x40, 0x12, 0x34, 0x51, 0x01]) 0 0 5 0)) (fun t => t.result = 0x7B) = true := by
  decide +kernel

/-- K4 -/
theorem test_crcchk : nextWith (exec .crcchk (st (bytesAt 0 [0x40, 0x12, 0x34, 0x51, 0x01, 0x7B]) 0 0 6 0)) (fun t => t.result = 1) = true := by
  decide +kernel

/-- K4 -/
theorem test_crcchk_bad : nextWith (exec .crcchk (st (bytesAt 0 [0x40, 0x12, 0x34, 0x51, 0x01, 0x7A]) 0 0 6 0)) (fun t => t.result = 0 && t.cerr = .ok) = true := by
  decide +kernel

/-- A2: the bytes beyond the block are dropped -/
theorem test_rxappend_overflow : nextWith (exec .rxappend { st (bytesAt 0x28 (List.replicate 25 0x33)) 0x28 0 25 0 with cursor := 40 })
    (fun t => t.result = 20 && t.cursor = 0 && t.rawReady && t.radioEvents = [.rearmRx] && t.rxbuf[59] = 0x33) = true := by
  decide +kernel

/-- A4 -/
theorem test_rxappend_range : nextWith (exec .rxappend (st [] 0xF0 0 60 0)) (fun t => t.cerr = .range && t.cursor = 0) = true := by
  decide +kernel

/-- X1 to X3: the three lengths are delivered -/
theorem test_rxpoll_delivers : decodeBlock blockBS = .frame frameFS 6 ∧ decodeBlock blockBM = .frame frameFM 7 ∧
    decodeBlock blockBL = .frame frameFL 9 := by
  decide +kernel

/-- X4 to X9: each discard -/
theorem test_rxpoll_discards : decodeBlock (blockBS.set 2 0x79) = .discard .man1 ∧ decodeBlock (blockBS.set 4 0x59) = .discard .frm1 ∧
    decodeBlock blockBX = .discard .lclass ∧ decodeBlock (blockBM.set 15 0x5E) = .discard .man2 ∧
    decodeBlock (((((blockBM.set 14 0x65).set 15 0x56).set 16 0x5A).set 17 0xA9).set 18 0x95) = .discard .frm2 ∧
    decodeBlock blockBC = .discard .crc := by
  decide +kernel

/-- P2 step 9, at the highest address of A11 -/
theorem test_rxget : nextWith (exec .rxget { st (bytesAt 247 (List.replicate 9 0xFF)) 0 247 0 0 with
      lastFrame := frameFS, lastlen := 6, pktReady := true })
    (fun t => State.has t 247 [0x40, 0x12, 0x34, 0x51, 0x01, 0x7B, 0, 0, 0] && t.result = 6 && !t.pktReady) = true := by
  decide +kernel
/-! ### Witnesses: the bus and the step -/

/-- ResetInputResetsTheBlock, IdleBlockKeepsItsState. -/
theorem witness_reset_and_idle : (facing .reset).pending = .reset :: [] ∧ State.reset.pending = [] := ⟨rfl, rfl⟩

/-- StepRunsTheDecodedCommand, CmdReadsBackTheWordWritten: a command write is next, and a read of `CMD` after it. -/
theorem witness_command_write :
    ({ State.reset with pending := [.write .word 0x00 0x00000012#32, .read .word 0x00] } : State).pending =
      .write .word 0x00 0x00000012#32 :: [.read .word 0x00] ∧
    decodeWord 0x00000012#32 = .ok .rxget ∧ Instr.rxget.wf = true := by
  refine ⟨rfl, rfl, by decide⟩

/-- IllegalWordChangesOnlyCerr, one word for each clause of the legality rule. -/
theorem witness_illegal_words : (CmdFields.ofWord 0x00000000#32).wf = false ∧ (CmdFields.ofWord 0x00000081#32).wf = false ∧
    (CmdFields.ofWord 0x00000401#32).wf = false ∧ (CmdFields.ofWord 0x0000010D#32).wf = false ∧
    (CmdFields.ofWord 0x00000201#32).wf = false ∧
    nextWith (step (facing (.write .word 0x00 0x0000010D#32))) (fun t => t.cerr = .illegal && t.cmd = 0x10D) = true := by
  decide +kernel

/-- HostReadReturnsTheLocation, at the first and last offset of each region and at every register. -/
theorem witness_reads : ∀ off ∈ [0x00, 0x04, 0x08, 0x0C, 0x10, 0x14, 0x18, 0x1C, 0x20, 0x24, 0x28, 0x2C, 0x30, 0xFC],
    off < 0x100 ∧ off % 4 = 0 ∧
    nextWith (step { facing (.read .word off) with cmd := 0, arg0 := 4, arg1 := 8, arg2 := 12, arg3 := 16, result := 20,
                                                   errcnt := 24, cerr := .range, cursor := 32, now := 36, lastact := 40, lastlen := 9 })
      (fun t => t.replies = [.word (if off = 0x1C then 2 else if off = 0x2C then 9 else if off < 0x30 then BitVec.ofNat 32 off else 0)])
      = true := by
  decide +kernel

theorem witness_byte_reads : nextWith (step { facing (.read .byte (0x100 + 0)) with wram := bytesAt 0 [7] }) (fun t => t.replies = [.byte 7])
    = true ∧
    nextWith (step { facing (.read .byte (0x100 + 255)) with wram := bytesAt 255 [8] }) (fun t => t.replies = [.byte 8]) = true := by
  decide +kernel

/-- HostWriteOfACsrStoresOrIsIgnored: a register that is stored, one that is read only, and the last reserved offset. -/
theorem witness_csr_writes : nextWith (step (facing (.write .word 0x04 5#32))) (fun t => t.arg0 = 5) = true ∧
    nextWith (step (facing (.write .word 0x24 5#32))) (fun t => t.now = 5) = true ∧
    nextWith (step (facing (.write .word 0x14 5#32))) (fun t => t.result = 0) = true ∧
    step (facing (.write .word 0xFC 5#32)) = .next State.reset := by
  refine ⟨by decide +kernel, by decide +kernel, by decide +kernel, rfl⟩

/-- HostWriteOfAWramByteStoresIt, at both ends of WRAM; of the data only bits 7:0 are stored. -/
theorem witness_byte_writes : nextWith (step (facing (.write .byte (0x100 + 0) 0x1FF#32))) (fun t => t.wram = [(0, 0xFF)]) = true ∧
    nextWith (step (facing (.write .byte (0x100 + 255) 1#32))) (fun t => t.wram = [(255, 1)]) = true := by
  decide +kernel

/-- OnlyMeaninglessAccessesAreRefused: each clause of R75 at the edge of its region, and the accesses beside them that are not refused. -/
theorem witness_refused : isRefused (step (facing (.read .byte 0xFF))) = true ∧ isRefused (step (facing (.read .half 0x00))) = true ∧
    isRefused (step (facing (.write .word 0xFE 0#32))) = true ∧ isRefused (step (facing (.read .half 0x100))) = true ∧
    isRefused (step (facing (.write .word 0x1FC 0#32))) = true ∧ isRefused (step (facing (.read .byte 0x200))) = true ∧
    isRefused (step (facing (.read .word 0xFC))) = false ∧ isRefused (step (facing (.read .byte 0x1FF))) = false := by
  decide +kernel

/-- WindowIs512BytesFromItsBase, at both ends of a window. -/
theorem witness_window : windowOffset 0x4000 0x4000 = some 0 ∧ windowOffset 0x4000 0x41FF = some 511 ∧
    windowOffset 0x4000 0x4200 = none ∧ windowOffset 0x4000 0x3FFF = none := by
  decide

/-- ReservedOpcodesAreIllegal, at the ends of the reserved values, with whatever stands in the other bits. -/
theorem witness_reserved : (0x00000000#32).toNat % 32 ∈ [0x00, 0x07, 0x0E, 0x0F] ∧ (0xFFFFFFE7#32).toNat % 32 ∈ [0x00, 0x07, 0x0E, 0x0F] ∧
    0x13 ≤ (0x00000013#32).toNat % 32 ∧ 0x13 ≤ (0xFFFFFFFF#32).toNat % 32 := by
  decide

/-! ### Witnesses: the commands over WRAM -/

/-- BitWritesSetOneBit, GetbitReadsOneBit: the last bit of WRAM, from its first and from its last byte. -/
theorem witness_bits : (st [] 255 0 7 1).arg0.toNat + (st [] 255 0 7 1).arg2.toNat / 8 < 256 ∧
    (st [] 0 0 2047 1).arg0.toNat + (st [] 0 0 2047 1).arg2.toNat / 8 < 256 ∧
    (Instr.defbitL, BitOrder.lsb, (st [] 0 0 2047 1).arg3.getLsbD 0) ∈ [(Instr.setbit, BitOrder.msb, true), (.setbitL, .lsb, true),
      (.clrbit, .msb, false), (.clrbitL, .lsb, false), (.defbit, .msb, (st [] 0 0 2047 1).arg3.getLsbD 0),
      (.defbitL, .lsb, (st [] 0 0 2047 1).arg3.getLsbD 0)] ∧
    (Instr.getbitL, BitOrder.lsb) ∈ [(Instr.getbit, BitOrder.msb), (.getbitL, .lsb)] := by
  decide +kernel

/-- SetnibWritesOneNibble, GetnibReadsOneNibble, NibblesAgreeWithBits: the last nibble of WRAM, of either half. -/
theorem witness_nibbles : (st [] 255 0 1 0xF).arg0.toNat + (st [] 255 0 1 0xF).arg2.toNat / 2 < 256 ∧
    (st [] 0 0 511 0xF).arg0.toNat + (st [] 0 0 511 0xF).arg2.toNat / 2 < 256 ∧
    (Instr.setnibL, BitOrder.lsb) ∈ [(Instr.setnib, BitOrder.msb), (.setnibL, .lsb)] ∧
    (Instr.getnibL, BitOrder.lsb) ∈ [(Instr.getnib, BitOrder.msb), (.getnibL, .lsb)] ∧
    nextWith (exec .getnibL (st (bytesAt 255 [0xA5]) 0 0 511 0)) (fun t => t.result = 0xA) = true := by
  decide +kernel

/-- MdecDecodesEveryPair: up to the last bit of WRAM, and no pair at all at addresses far outside. -/
theorem witness_mdec : 0 < (st [] 254 255 8 0).arg2.toNat ∧
    (st [] 254 255 8 0).arg0.toNat + (2 * (st [] 254 255 8 0).arg3.toNat + 2 * (st [] 254 255 8 0).arg2.toNat - 1) / 8 < 256 ∧
    (st [] 254 255 8 0).arg1.toNat + ((st [] 254 255 8 0).arg2.toNat - 1) / 8 < 256 ∧
    ¬ 0 < (st [] 0xFFFF 0xFFFF 0 0).arg2.toNat ∧ (Instr.mdecA, true) ∈ [(Instr.mdec, false), (.mdecA, true)] ∧
    nextWith (exec .mdec { st [] 0xFFFF 0xFFFF 0 0 with errcnt := 5 }) (fun t => t.errcnt = 0 && t.cerr = .ok) = true := by
  decide +kernel

/-- MencEncodesEveryBit, ManchesterRoundTrip: the output ends with the last bit of WRAM, at an even offset. -/
theorem witness_menc : 0 < (st [] 0 0xFE 6 4).arg2.toNat ∧
    (st [] 0 0xFE 6 4).arg0.toNat + ((st [] 0 0xFE 6 4).arg2.toNat - 1) / 8 < 256 ∧
    (st [] 0 0xFE 6 4).arg1.toNat + ((st [] 0 0xFE 6 4).arg3.toNat + 2 * (st [] 0 0xFE 6 4).arg2.toNat - 1) / 8 < 256 ∧
    (st [] 0 0xFE 6 4).arg3.toNat = 2 * (2#32).toNat ∧ (255#32).toNat + ((st [] 0 0xFE 6 4).arg2.toNat - 1) / 8 < 256 := by
  decide +kernel

/-- FdecDecodesEveryGroup: the framed bits end in the last byte of WRAM. -/
theorem witness_fdec : 0 < (st [] 0xFE 255 1 0).arg2.toNat ∧
    (st [] 0xFE 255 1 0).arg0.toNat + (10 * (st [] 0xFE 255 1 0).arg2.toNat - 1) / 8 < 256 ∧
    (st [] 0xFE 255 1 0).arg1.toNat + (st [] 0xFE 255 1 0).arg2.toNat - 1 < 256 ∧
    (Instr.fdecA, true) ∈ [(Instr.fdec, false), (.fdecA, true)] := by
  decide +kernel

/-- FencEncodesEveryNibble, FramingRoundTrip: G7, and the trailing marker alone in the last byte. -/
theorem witness_fenc : 0 < (st [] 250 0xF8 6 0).arg2.toNat ∧ (st [] 250 0xF8 6 0).arg0.toNat + (st [] 250 0xF8 6 0).arg2.toNat - 1 < 256 ∧
    (st [] 250 0xF8 6 0).arg1.toNat + 10 * (st [] 250 0xF8 6 0).arg2.toNat / 8 < 256 ∧
    (250#32).toNat + (st [] 250 0xF8 6 0).arg2.toNat - 1 < 256 ∧
    ¬ 0 < (st [] 0xFFFF 255 0 0).arg2.toNat ∧ (st [] 0xFFFF 255 0 0).arg1.toNat + 10 * (st [] 0xFFFF 255 0 0).arg2.toNat / 8 < 256 := by
  decide +kernel

/-- F3: one byte encoded, the marker of its second group cleared in a copy of the result. -/
def encoded : State := st (bytesAt 0 [0x40] ++ bytesAt 0x40 [0, 0]) 0 0x40 1 0
def cleared : State := st (bytesAt 0x40 [0x80, 0xA0]) 0x40 0x50 1 0

/-- ClearedMarkersAreCounted. -/
theorem witness_cleared_markers : exec .fenc encoded = .next (after (exec .fenc encoded)) ∧ (after (exec .fenc encoded)).cerr = .ok ∧
    [1].Nodup ∧ (∀ g ∈ [1], g < 2 * encoded.arg2.toNat) ∧
    cleared.arg0 = encoded.arg1 ∧ cleared.arg1 = 0x50#32 ∧ cleared.arg2 = encoded.arg2 ∧
    (0x50#32).toNat + encoded.arg2.toNat - 1 < 256 ∧
    ∀ p, p < 10 * encoded.arg2.toNat → cleared.bit encoded.arg1.toNat p .msb =
      ((after (exec .fenc encoded)).bit encoded.arg1.toNat p .msb && !(decide (p % 5 = 0) && [1].contains (p / 5))) := by
  refine ⟨rfl, ?_⟩
  decide +kernel

/-! ### Witnesses: the checksum -/

/-- Crc8ChecksumsTheBytes, CrcchkComparesTheLastByte: K12, and the length 0 of K1 and K10. -/
theorem witness_checksums : 0 < (st [] 0xFB 0 5 0).arg2.toNat ∧ (st [] 0xFB 0 5 0).arg0.toNat + (st [] 0xFB 0 5 0).arg2.toNat - 1 < 256 ∧
    (st [] 0x1000 0 0 0).arg2 = 0 ∧ nextWith (exec .crcchk (st [] 0x1000 0 0 0)) (fun t => t.cerr = .badLen) = true ∧
    nextWith (exec .crc8 (st [] 0x1000 0 0 0)) (fun t => t.cerr = .ok && t.result = 0) = true := by
  decide +kernel

/-- ChecksumResidueIsZero: the last byte of WRAM takes the checksum. -/
theorem witness_residue : (st (bytesAt 254 [1]) 254 0 1 0).arg0.toNat + (st (bytesAt 254 [1]) 254 0 1 0).arg2.toNat < 256 ∧
    exec .crc8 (st (bytesAt 254 [1]) 254 0 1 0) = .next (after (exec .crc8 (st (bytesAt 254 [1]) 254 0 1 0))) := by
  refine ⟨by decide +kernel, rfl⟩

/-- SingleBitErrorsAreDetected: the last bit of 64 bytes. -/
theorem witness_single_bit : (List.replicate 64 (0x5A : Byte)).length ≤ 64 ∧ 63 < (List.replicate 64 (0x5A : Byte)).length ∧ 7 < 8 := by
  decide

/-! ### Witnesses: the receive pipeline -/

/-- RxappendAccumulates: the last byte of a block, a byte short of it, and an empty append whose address is outside WRAM. -/
theorem witness_rxappend :
    ({ st [] 255 0 9 0 with cursor := 59 } : State).cursor.toNat < 60 ∧
    1 = min ({ st [] 255 0 9 0 with cursor := 59 } : State).arg2.toNat (60 - ({ st [] 255 0 9 0 with cursor := 59 } : State).cursor.toNat) ∧
    ({ st [] 255 0 9 0 with cursor := 59 } : State).arg0.toNat + 1 - 1 < 256 ∧
    59 = min (st [] 197 0 59 0).arg2.toNat (60 - (st [] 197 0 59 0).cursor.toNat) ∧ (st [] 197 0 59 0).arg0.toNat + 59 - 1 < 256 ∧
    0 = min (st [] 0x1000 0 0 0).arg2.toNat (60 - (st [] 0x1000 0 0 0).cursor.toNat) ∧
    nextWith (exec .rxappend (st [] 0x1000 0 0 0)) (fun t => t.cerr = .ok && t.result = 0) = true := by
  decide +kernel

/-- SplitAppendsJoin: the two halves complete a block, and end with WRAM. -/
theorem witness_split : (st [] 196 0 60 0).cursor.toNat < 60 ∧ (st [] 196 0 60 0).cursor.toNat + 25 + 35 ≤ 60 ∧
    (st [] 196 0 60 0).arg0.toNat + 25 + 35 ≤ 256 ∧ (st [] 196 0 60 0).arg2.toNat = 25 + 35 := by
  decide +kernel

/-- A partial block `ms` after its last byte, which arrived just before `NOW` wraps (A8, A9). -/
def partialBlock (ms : Nat) : State :=
  { State.reset with cursor := 1, lastact := 0xFFFFFF00#32, now := 0xFFFFFF00#32 + BitVec.ofNat 32 ms }

/-- ResyncResetsAPartialBlock at 601 ms, QuietPollOnlyReports at 600 ms and with an empty buffer. -/
theorem witness_resync : (partialBlock 601).rawReady = false ∧ (partialBlock 601).cursor ≠ 0 ∧
    ((partialBlock 601).now.toNat + (2 ^ 32 - (partialBlock 601).lastact.toNat)) % 2 ^ 32 > 600 ∧
    ((partialBlock 600).now.toNat + (2 ^ 32 - (partialBlock 600).lastact.toNat)) % 2 ^ 32 ≤ 600 ∧ State.reset.cursor = 0 ∧
    nextWith (exec .rxpoll (partialBlock 601)) (fun t => t.cursor = 0 && t.radioEvents = [.rearmRx]) = true ∧
    nextWith (exec .rxpoll (partialBlock 600)) (fun t => t.cursor = 1 && t.radioEvents = []) = true := by
  decide +kernel

/-- PollDecodesTheWaitingBlock, both clauses. -/
theorem witness_poll : (waiting blockBM).rawReady = true ∧ (waiting blockBM).cursor = 0 ∧
    decodeBlock (waiting blockBM).rxbuf = .frame frameFM 7 ∧ (waiting blockBC).rawReady = true ∧
    decodeBlock (waiting blockBC).rxbuf = .discard .crc := by
  decide +kernel

/-- ResyncAndDecodeAreIndependent: a waiting block behind a stale partial one. -/
def stale : State := { waiting blockBS with cursor := 1, lastact := 0, now := 601 }

theorem witness_independent : stale.cursor ≠ 0 ∧ (stale.now.toNat + (2 ^ 32 - stale.lastact.toNat)) % 2 ^ 32 > 600 ∧
    exec .rxpoll { stale with cursor := 0 } = .next (after (exec .rxpoll { stale with cursor := 0 })) ∧
    nextWith (exec .rxpoll stale) (fun t => t.cursor = 0 && t.radioEvents = [.rearmRx] && t.lastFrame = frameFS) = true := by
  refine ⟨by decide +kernel, by decide +kernel, rfl, by decide +kernel⟩

/-- The short, the medium and the long frame are validated frames. -/
theorem witness_valid_short : ValidFrame frameFS 6 := ⟨⟨0, by unfold ClassExtra; decide, rfl⟩, by decide +kernel, by decide +kernel⟩
theorem witness_valid_medium : ValidFrame frameFM 7 := ⟨⟨1, by unfold ClassExtra; decide, rfl⟩, by decide +kernel, by decide +kernel⟩
theorem witness_valid_long : ValidFrame frameFL 9 := ⟨⟨3, by unfold ClassExtra; decide, rfl⟩, by decide +kernel, by decide +kernel⟩

/-- DecodeDeliversExactlyCarriedFrames: the test blocks carry them. -/
theorem witness_carries : Carries blockBS frameFS 6 ∧ Carries blockBM frameFM 7 ∧ Carries blockBL frameFL 9 := by
  unfold Carries
  decide +kernel

/-- DiscardsFollowTheStageOrder: the length classes of the test blocks, and a block at each failing stage. -/
theorem witness_stages : badPair (blockBS.set 2 0x79) 7 = true ∧ frameBit (blockBS.set 4 0x59) (5 * 3) = false ∧
    (carriedBit blockBX 4 7 = true ∧ carriedBit blockBX 4 6 = true) ∧
    ClassExtra (carriedBit blockBS 4 7) (carriedBit blockBS 4 6) 0 ∧ ClassExtra (carriedBit blockBM 4 7) (carriedBit blockBM 4 6) 1 ∧
    ClassExtra (carriedBit blockBL 4 7) (carriedBit blockBL 4 6) 3 ∧
    (∀ t, t < 60 → badPair blockBX t = false) ∧ (∀ g, g < 12 → frameBit blockBX (5 * g) = true) ∧
    badPair (blockBL.set 22 0x6B) 89 = true ∧ decodeBlock (blockBL.set 22 0x6B) = .discard .man2 := by
  unfold ClassExtra
  decide +kernel

/-- X10, X11 and X13 together: noise before the frame, in its trailing marker and at the end of the block. -/
def noisyBS : Vector Byte 60 := ((blockBS.set 0 0xF9).set 15 0x95).set 59 0x00

/-- DecodeReadsOnlyTheFrameSpan. -/
theorem witness_span : decodeBlock blockBS = .frame frameFS 6 ∧ noisyBS ≠ blockBS ∧
    (∀ p, p < 4 + 20 * 6 → 4 ≤ p → airBit noisyBS p = airBit blockBS p) ∧ (blockBL.set 0 0xF9).set 23 0x00 ≠ blockBL ∧
    ∀ p, p < 184 → 4 ≤ p → airBit ((blockBL.set 0 0xF9).set 23 0x00) p = airBit blockBL p := by
  decide +kernel

/-- CorruptedBlockLeavesTheLastFrame: X4 and X12, the first and a later pair, after a frame has been received. -/
theorem witness_corrupted : (waiting (blockBS.set 0 0xFF)).rawReady = true ∧ 0 < 60 ∧ badPair (waiting (blockBS.set 0 0xFF)).rxbuf 0 = true ∧
    nextWith (exec .rxpoll { waiting (blockBS.set 0 0xFF) with lastFrame := frameFM, lastlen := 7 })
      (fun t => t.outcome = .man1 && t.lastFrame = frameFM && t.result = 0) = true := by
  decide +kernel

/-- RxgetCopiesTheLastFrame, FirstCommandsAfterReset: A11, the highest address. -/
theorem witness_rxget : (st [] 0 247 0 0).arg1.toNat ≤ 247 ∧ (247#32).toNat ≤ 247 ∧
    nextWith (exec .rxget (st [] 0 247 0 0)) (fun t => State.has t 247 [0, 0, 0, 0, 0, 0, 0, 0, 0] && t.result = 0) = true ∧
    nextWith (exec .rxget (st [] 0 248 0 0)) (fun t => t.cerr = .range) = true := by
  decide +kernel

/-- The bytes of the long block at the end of WRAM. -/
def delivering : State := st (bytesAt 196 (blockBL.toList.map BitVec.toNat)) 196 247 60 0

/-- CarriedFrameIsReceived. -/
theorem witness_received : ValidFrame frameFL 9 ∧ Carries blockBL frameFL 9 ∧ delivering.cursor = 0 ∧ delivering.arg2.toNat ≥ 60 ∧
    delivering.arg0.toNat + 60 ≤ 256 ∧ delivering.arg1.toNat ≤ 247 ∧
    ∀ j : Fin 60, delivering.byte (delivering.arg0.toNat + j.val) = blockBL[j] :=
  ⟨witness_valid_long, witness_carries.2.2, by decide +kernel⟩

/-- UnwrittenRxbufIsUnobservable: two different buffers behind a cursor of 1, with an append to come. -/
def oneByteIn (v : Vector Byte 60) : State := { facing (commandWrite 0x10) with cursor := 1, rxbuf := v, arg2 := 0 }

theorem witness_unwritten : (oneByteIn blockBS).AgreeButUnwritten (oneByteIn (blockBM.set 0 0xA9)) ∧
    (oneByteIn blockBS).rxbuf ≠ (oneByteIn (blockBM.set 0 0xA9)).rxbuf ∧
    step (oneByteIn blockBS) = .next (after (step (oneByteIn blockBS))) := by
  refine ⟨⟨rfl, by decide, by decide +kernel⟩, by decide +kernel, rfl⟩

/-! ### Witnesses: over all commands, and the invariant -/

/-- CommandsInRangeComplete, CommandsOutOfRangeRaiseRange: the last byte of WRAM, and the first address after it. -/
theorem witness_range : Instr.setbit.inRange (st [] 255 0 7 0) ∧ ¬ Instr.setbit.inRange (st [] 255 0 8 0) ∧
    ¬ Instr.rxget.inRange (st [] 0 248 0 0) ∧ (st [] 255 0 1 0).arg2 ≠ 0 ∧ Instr.crcchk.inRange (st [] 255 0 1 0) ∧
    ¬ Instr.crcchk.inRange (st [] 255 0 2 0) := by
  refine ⟨?_, fun h => absurd (h 256 (.inl rfl)) (by decide), fun h => absurd (h 256 (.inr ⟨8, by decide, rfl⟩)) (by decide), by decide, ?_,
    fun h => absurd (h 256 (.inl ⟨1, by decide, rfl⟩)) (by decide)⟩
  · rintro a (h | h) <;> exact h ▸ (by decide)
  · rintro a (⟨j, h, rfl⟩ | h)
    · have h : j < 1 := h
      have : j = 0 := by omega
      subst this; decide
    · exact h.elim

/-- EveryCommandHasANextState, CommandErrorsChangeOnlyCerr, CommandsKeepCmdOperandsAndTime: a command that ends in each error it can. -/
theorem witness_errors : exec .getbit (st [] 255 0 8 0) = .next { st [] 255 0 8 0 with cerr := .range } ∧ CmdError.range ≠ .ok ∧
    exec .crcchk (st [] 256 0 0 0) = .next { st [] 256 0 0 0 with cerr := .badLen } ∧ CmdError.badLen ≠ .ok := by
  refine ⟨rfl, by decide, rfl, by decide⟩

/-- ResultIsWrittenOnlyByItsCommands, ErrcntIsWrittenOnlyByTheDecoders: a command that does change them. -/
theorem witness_writers : (after (exec .crc8 (st (bytesAt 255 [1]) 255 0 1 0))).result ≠ (st (bytesAt 255 [1]) 255 0 1 0).result ∧
    (after (exec .mdec (st (bytesAt 254 [0, 1]) 255 254 1 0))).errcnt ≠ (st (bytesAt 254 [0, 1]) 255 254 1 0).errcnt := by
  decide +kernel

/-- ReceiveStateIsWrittenOnlyByItsCommands: an append, a poll and a get that change the pieces they may. -/
theorem witness_receive_writers :
    (after (exec .rxappend { delivering with now := 7 })).rawReady ≠ delivering.rawReady ∧
    (after (exec .rxappend { delivering with now := 7 })).lastact ≠ delivering.lastact ∧
    (after (exec .rxappend { delivering with now := 7 })).rxbuf ≠ delivering.rxbuf ∧
    (after (exec .rxappend { delivering with arg2 := 59 })).cursor ≠ delivering.cursor ∧
    (after (exec .rxpoll (waiting blockBL))).pktReady ≠ (waiting blockBL).pktReady ∧
    (after (exec .rxpoll (waiting blockBL))).outcome ≠ (waiting blockBL).outcome ∧
    (after (exec .rxpoll (waiting blockBL))).lastFrame ≠ (waiting blockBL).lastFrame ∧
    (after (exec .rxget { st [] 0 0 0 0 with pktReady := true })).pktReady ≠ true := by
  decide +kernel

/-- DiagnosticsSteerNoCommand: a poll that decodes, behind an error and an earlier outcome. -/
theorem witness_diagnostics : exec .rxpoll (waiting blockBX) = .next (after (exec .rxpoll (waiting blockBX))) ∧
    (waiting blockBX).rawReady = true ∧ nextWith (exec .rxpoll { waiting blockBX with cerr := .range, outcome := .crc })
      (fun t => t.outcome = .lclass && t.cerr = .ok) = true := by
  refine ⟨rfl, rfl, by decide +kernel⟩

/-- CommandsWriteOnlyTheirBytes: the bytes on both sides of the nine that RXGET writes. -/
theorem witness_untouched : exec .rxget (st [] 0 1 0 0) = .next (after (exec .rxget (st [] 0 1 0 0))) ∧
    ¬ Instr.rxget.writes (st [] 0 1 0 0) 0 ∧ ¬ Instr.rxget.writes (st [] 0 1 0 0) 10 := by
  refine ⟨rfl, ?_, ?_⟩
  · rintro ⟨j, -, h⟩
    have h : 0 = 1 + j := h
    omega
  · rintro ⟨j, hj, h⟩
    have h : 10 = 1 + j := h
    omega

/-- StepKeepsTheInvariant: a state with a waiting block, a frame that has not been taken and a byte of the next block. -/
def busy : State :=
  { waiting blockBS with cursor := 59, wram := bytesAt 255 [1], lastFrame := frameFL, lastlen := 9, outcome := .ok, pktReady := true,
                         pending := [commandWrite 0x11] }

theorem witness_invariant : busy.Inv ∧ step busy = .next (after (step busy)) :=
  ⟨⟨by decide +kernel, by decide +kernel, .inr witness_valid_long, by decide +kernel, by decide +kernel⟩, rfl⟩

end Sys2Proof.Tests
end

/-! ## The state: what each command may change, what steers it, and the invariant (10_state.md) -/

namespace Sys2Proof.Machine

/-! ### What a command can end in -/

/-- The cursor and the radio's record after the resync timeout: untouched, or the cursor taken back and one request made (R236). -/
def State.Resynced (s : State) (cur : BitVec 6) (ev : List RadioEvent) : Prop :=
  cur = s.cursor ∧ ev = s.radioEvents ∨ cur = 0 ∧ ev = s.radioEvents ++ [.rearmRx]

/-- The states that command `i` can end in from `s` (R109, R260), each as an update of `s`: the one inversion that every frame and
invariant below is read off. A written WRAM is canonical wherever the one before it was. -/
inductive CommandEnds (s : State) : Instr → State → Prop
  | error {i : Instr} (c : CmdError) (hc : c ≠ .ok) : CommandEnds s i { s with cerr := c }
  | stored {i : Instr} (m : Memory) (hm : s.wram.wf = true → m.wf = true) :
      CommandEnds s i { s with wram := m, cerr := .ok }
  | read {i : Instr} (r : Word) (hi : i ∈ [Instr.getbit, .getbitL, .getnib, .getnibL, .crc8, .crcchk]) :
      CommandEnds s i { s with result := r, cerr := .ok }
  | decoded {i : Instr} (m : Memory) (e : BitVec 16) (hm : s.wram.wf = true → m.wf = true)
      (hi : i ∈ [Instr.mdec, .mdecA, .fdec, .fdecA]) : CommandEnds s i { s with wram := m, errcnt := e, cerr := .ok }
  | appendedPart (r : Word) (hc : (s.appendBytes s.accepted).cursor.toNat ≠ 60) :
      CommandEnds s .rxappend { s.appendBytes s.accepted with result := r, cerr := .ok }
  | appendedBlock (r : Word) :
      CommandEnds s .rxappend { (s.appendBytes s.accepted).completeBlock with result := r, cerr := .ok }
  | polledQuiet (cur : BitVec 6) (ev : List RadioEvent) (r : Word) (hs : s.Resynced cur ev) (hraw : s.rawReady = false) :
      CommandEnds s .rxpoll { s with cursor := cur, radioEvents := ev, result := r, cerr := .ok }
  | discarded (cur : BitVec 6) (ev : List RadioEvent) (r : Word) (oc : RxOutcome) (hs : s.Resynced cur ev)
      (hraw : s.rawReady = true) (hd : decodeBlock s.rxbuf = .discard oc) :
      CommandEnds s .rxpoll
        { s with cursor := cur, radioEvents := ev, result := r, cerr := .ok, rawReady := false, outcome := oc }
  | delivered (cur : BitVec 6) (ev : List RadioEvent) (r : Word) (f : Vector Byte 9) (n : Nat) (hs : s.Resynced cur ev)
      (hraw : s.rawReady = true) (hd : decodeBlock s.rxbuf = .frame f n) :
      CommandEnds s .rxpoll
        { s with cursor := cur, radioEvents := ev, result := r, cerr := .ok, rawReady := false, outcome := .ok,
                 lastFrame := f, lastlen := BitVec.ofNat 4 n, pktReady := true }
  | got (m : Memory) (r : Word) (hm : s.wram.wf = true → m.wf = true) :
      CommandEnds s .rxget { s with wram := m, result := r, pktReady := false, cerr := .ok }

/-- A guarded command ends as its operation does where its bytes are in range, and in an error elsewhere. -/
theorem CommandEnds.of_whenInRange {ok : Bool} {i : Instr} {s op t : State} (h : whenInRange ok s op = .next t)
    (hop : ok = true → CommandEnds s i { op with cerr := .ok }) : CommandEnds s i t := by
  obtain ⟨hok, rfl⟩ | ⟨-, rfl⟩ := whenInRange_next _ _ _ _ h
  · exact hop hok
  · exact .error .range (by decide)

theorem writeBitCmd_ends {i : Instr} {ord : BitOrder} {v : Bool} {s t : State} (h : writeBitCmd ord v s = .next t) :
    CommandEnds s i t :=
  .of_whenInRange h fun hok =>
    .stored _ fun hm => State.wf_bitWrite _ _ _ _ _ hm ((inRange_iff _).mp hok)

theorem writeNibbleCmd_ends {i : Instr} {ord : BitOrder} {s t : State} (h : writeNibbleCmd ord s = .next t) :
    CommandEnds s i t :=
  .of_whenInRange h fun hok => .stored _ fun hm => Memory.wf_set _ _ _ hm ((inRange_iff _).mp hok)

/-- A stream that passes the range check is written inside WRAM. -/
theorem State.wf_writeBits_of_bitsInRange (s : State) (base start : Nat) (ord : BitOrder) (l : List (Option Bool))
    (hr : bitsInRange base start l.length = true) (h : s.wram.wf = true) :
    (s.writeBits base start ord l).wram.wf = true := by
  refine State.wf_writeBits _ _ _ _ _ h ?_
  rcases l.eq_nil_or_concat with rfl | ⟨l', x, rfl⟩
  · exact .inl rfl
  · exact .inr ((bitsInRange_iff _ _ _).mp hr (by simp))

/-- Bytes that pass the range check are written inside WRAM. -/
theorem State.wf_writeBytes_of_bytesInRange (s : State) (a : Nat) (l : List Byte) (hr : bytesInRange a l.length = true)
    (h : s.wram.wf = true) : (s.writeBytes a l).wram.wf = true := by
  refine State.wf_writeBytes _ _ _ h ?_
  rcases l with _ | ⟨x, l'⟩
  · exact .inl rfl
  · have := (bytesInRange_iff _ _).mp hr (by simp)
    simp only [List.length_cons] at this ⊢
    omega

theorem manDecodeCmd_ends {i : Instr} {acc : Bool} {s t : State} (h : manDecodeCmd acc s = .next t)
    (hi : i ∈ [Instr.mdec, .mdecA, .fdec, .fdecA]) : CommandEnds s i t := by
  refine .of_whenInRange h fun hok => ?_
  rw [State.writeBits_eq]
  refine .decoded _ _ (State.wf_writeBits_of_bitsInRange _ _ _ _ _ ?_) hi
  rw [length_manDec]
  exact ((Bool.and_eq_true _ _).mp hok).2

theorem frmDecodeCmd_ends {i : Instr} {acc : Bool} {s t : State} (h : frmDecodeCmd acc s = .next t)
    (hi : i ∈ [Instr.mdec, .mdecA, .fdec, .fdecA]) : CommandEnds s i t := by
  refine .of_whenInRange h fun hok => ?_
  rw [State.writeBytes_eq]
  refine .decoded _ _ (State.wf_writeBytes_of_bytesInRange _ _ _ ?_) hi
  rw [readBits_eq_stream, length_frmBytes_stream]
  exact ((Bool.and_eq_true _ _).mp hok).2

theorem execMenc_ends {s t : State} (h : execMenc s = .next t) : CommandEnds s .menc t := by
  refine .of_whenInRange h fun hok => ?_
  rw [State.writeBits_eq]
  refine .stored _ (State.wf_writeBits_of_bitsInRange _ _ _ _ _ ?_)
  rw [List.length_map, readBits_eq_stream, manEncode_stream, length_stream]
  exact ((Bool.and_eq_true _ _).mp hok).2

theorem execFenc_ends {s t : State} (h : execFenc s = .next t) : CommandEnds s .fenc t := by
  refine .of_whenInRange h fun hok => ?_
  rw [State.writeBits_eq]
  refine .stored _ (State.wf_writeBits_of_bitsInRange _ _ _ _ _ ?_)
  rw [List.length_map, readBits_eq_stream, show 8 * s.a2 = 4 * (2 * s.a2) by ring, frmEncode_stream, length_stream,
    show 5 * (2 * s.a2) + 1 = 10 * s.a2 + 1 by ring]
  exact ((Bool.and_eq_true _ _).mp hok).2

theorem execCrcchk_ends {s t : State} (h : execCrcchk s = .next t) : CommandEnds s .crcchk t := by
  unfold execCrcchk at h
  split at h
  · cases h; exact .error .badLen (by decide)
  · exact .of_whenInRange h fun _ => .read _ (by decide)

/-- The end of an append that is in range: the bytes copied, the block completed where it is full, and the count (R222). -/
def State.afterAppend (s : State) : State :=
  (if (s.appendBytes s.accepted).cursor.toNat = Config.rawBlockBytes then (s.appendBytes s.accepted).completeBlock
    else s.appendBytes s.accepted).setResult (BitVec.ofNat 32 s.accepted)

theorem execRxappend_eq (s : State) :
    execRxappend s = whenInRange (bytesInRange s.a0 s.accepted) s s.afterAppend := rfl

theorem execRxappend_ends {s t : State} (h : execRxappend s = .next t) : CommandEnds s .rxappend t := by
  rw [execRxappend_eq] at h
  refine .of_whenInRange h fun _ => ?_
  unfold State.afterAppend
  split
  · exact .appendedBlock _
  · exact .appendedPart _ ‹_›

/-- What the resync leaves is the state before it, but for the cursor and the radio's record (R236). -/
theorem State.resync_eq (s : State) :
    ∃ cur ev, s.Resynced cur ev ∧ s.resync = { s with cursor := cur, radioEvents := ev } := by
  obtain ⟨-, h⟩ | ⟨-, h⟩ := s.resync_cases
  · exact ⟨_, _, .inl ⟨rfl, rfl⟩, h⟩
  · exact ⟨_, _, .inr ⟨rfl, rfl⟩, h⟩

theorem execRxpoll_ends {s t : State} (h : execRxpoll s = .next t) : CommandEnds s .rxpoll t := by
  obtain ⟨cur, ev, hs, hres⟩ := s.resync_eq
  simp only [execRxpoll, complete, Host.Outcome.next.injEq] at h
  subst h
  obtain ⟨hraw, hdec⟩ | ⟨hraw, ⟨oc, hd, hdec⟩ | ⟨f, n, hd, hdec⟩⟩ := s.resync.decodeStep_cases
  all_goals rw [hdec]; rw [hres] at *
  · exact .polledQuiet cur ev _ hs hraw
  · exact .discarded cur ev _ oc hs hraw hd
  · exact .delivered cur ev _ f n hs hraw hd

theorem execRxget_ends {s t : State} (h : execRxget s = .next t) : CommandEnds s .rxget t := by
  refine .of_whenInRange h fun hok => ?_
  rw [State.writeBytes_eq]
  refine .got _ _ (State.wf_writeBytes_of_bytesInRange _ _ _ ?_)
  rwa [length_frame_toList]

/-- Every next state of a command is one of those of `CommandEnds`. -/
theorem exec_ends {i : Instr} {s t : State} (h : exec i s = .next t) : CommandEnds s i t := by
  cases i with
  | setbit | setbitL | clrbit | clrbitL | defbit | defbitL => exact writeBitCmd_ends h
  | getbit | getbitL | getnib | getnibL | crc8 => exact .of_whenInRange h fun _ => .read _ (by decide)
  | setnib | setnibL => exact writeNibbleCmd_ends h
  | mdec | mdecA => exact manDecodeCmd_ends h (by decide)
  | menc => exact execMenc_ends h
  | fdec | fdecA => exact frmDecodeCmd_ends h (by decide)
  | fenc => exact execFenc_ends h
  | crcchk => exact execCrcchk_ends h
  | rxappend => exact execRxappend_ends h
  | rxpoll => exact execRxpoll_ends h
  | rxget => exact execRxget_ends h

/-- Every command has a next state: it completes, or ends in a command error (R271). -/
theorem exec_exists (i : Instr) (s : State) : ∃ t, exec i s = .next t := by
  cases i with
  | crcchk =>
    change ∃ t, execCrcchk s = .next t
    unfold execCrcchk
    split
    · exact ⟨_, rfl⟩
    · exact whenInRange_exists _ _ _
  | rxpoll => exact ⟨_, rfl⟩
  | _ => exact whenInRange_exists _ _ _

/-! ### The frame of every command -/

/-- Settles O53: no end of a command names one of these fields. -/
theorem commandsKeepCmdOperandsAndTime : Obligations.CommandsKeepCmdOperandsAndTime := by
  intro i s t h
  cases exec_ends h <;> exact ⟨rfl, rfl, rfl, rfl, rfl, rfl, rfl, rfl, rfl⟩

/-- Settles O54: of the ends that name `RESULT`, each is a completion of one of the commands listed. -/
theorem resultIsWrittenOnlyByItsCommands : Obligations.ResultIsWrittenOnlyByItsCommands := by
  intro i s t h hne
  cases exec_ends h with
  | error | stored | decoded => exact absurd rfl hne
  | read r hi => exact ⟨rfl, List.mem_append_left [Instr.rxappend, .rxpoll, .rxget] hi⟩
  | appendedPart | appendedBlock | polledQuiet | discarded | delivered | got => exact ⟨rfl, by decide⟩

/-- Settles O55: one end names `ERRCNT`, and it is a completion of one of the four decoders. -/
theorem errcntIsWrittenOnlyByTheDecoders : Obligations.ErrcntIsWrittenOnlyByTheDecoders := by
  intro i s t h hne
  cases exec_ends h with
  | decoded m e hm hi => exact ⟨rfl, hi⟩
  | _ => exact absurd rfl hne

/-- The cursor and the radio's record of a poll, as O56 asks for them. -/
theorem State.Resynced.cursor_and_events {s : State} {cur : BitVec 6} {ev : List RadioEvent} (h : s.Resynced cur ev) :
    (cur ≠ s.cursor → cur = 0) ∧ (ev = s.radioEvents ∨ ev = s.radioEvents ++ [.rearmRx]) := by
  obtain ⟨rfl, rfl⟩ | ⟨rfl, rfl⟩ := h
  · exact ⟨fun h => absurd rfl h, .inl rfl⟩
  · exact ⟨fun _ => rfl, .inr rfl⟩

/-- `LASTACT` after an append: the time of the command, if a byte arrived (R222). -/
theorem State.appendBytes_lastact_of_ne (s : State) (k : Nat) (h : (s.appendBytes k).lastact ≠ s.lastact) :
    (s.appendBytes k).lastact = s.now := by
  rw [State.appendBytes_lastact] at h ⊢
  split_ifs at h ⊢
  · rfl
  · exact absurd rfl h

/-- Settles O56: the pieces that each end of a command names, with the values it gives them. -/
theorem receiveStateIsWrittenOnlyByItsCommands : Obligations.ReceiveStateIsWrittenOnlyByItsCommands := by
  intro i s t h
  cases exec_ends h with
  | error | stored | read | decoded | got => simp
  | appendedPart | appendedBlock => simpa using s.appendBytes_lastact_of_ne s.accepted
  | polledQuiet _ _ _ hs | discarded _ _ _ _ hs | delivered _ _ _ _ _ hs => simpa using hs.cursor_and_events

end Sys2Proof.Machine

namespace Sys2Proof.Machine

/-! ### What steers no command -/

/-- The state with other diagnostics and another `RXBUF`: what no command outside the receive pipeline reads (R36, R39, R46). -/
def State.withUnseen (s : State) (c : CmdError) (oc : RxOutcome) (v : Vector Byte 60) : State :=
  { s with cerr := c, outcome := oc, rxbuf := v }

section
variable {s t : State} {c : CmdError} {oc : RxOutcome} {v : Vector Byte 60}

/-- What is unseen before a guarded command is unseen after it, but for the `CERR` that the command writes. -/
theorem whenInRange_withUnseen {ok : Bool} {op op' : State} (h : whenInRange ok s op = .next t)
    (hop : op' = op.withUnseen c oc v) :
    whenInRange ok (s.withUnseen c oc v) op' = .next (t.withUnseen t.cerr oc v) := by
  subst hop
  obtain ⟨rfl, rfl⟩ | ⟨rfl, rfl⟩ := whenInRange_next _ _ _ _ h <;> rfl

theorem State.writeBytes_withUnseen (s : State) (a : Nat) (l : List Byte) :
    (s.withUnseen c oc v).writeBytes a l = (s.writeBytes a l).withUnseen c oc v := by
  induction l generalizing s a with
  | nil => rfl
  | cons x rest ih => exact ih (s.setByte a x) (a + 1)

theorem State.writeBits_withUnseen (s : State) (base start : Nat) (ord : BitOrder) (l : List (Option Bool)) :
    (s.withUnseen c oc v).writeBits base start ord l = (s.writeBits base start ord l).withUnseen c oc v := by
  induction l generalizing s start with
  | nil => rfl
  | cons b rest ih =>
    cases b with
    | none => exact ih s (start + 1)
    | some x => exact ih (s.bitWrite base start ord x) (start + 1)

theorem execCrcchk_withUnseen (h : execCrcchk s = .next t) :
    execCrcchk (s.withUnseen c oc v) = .next (t.withUnseen t.cerr oc v) := by
  unfold execCrcchk at h ⊢
  by_cases h0 : s.a2 = 0
  · rw [if_pos h0] at h
    rw [if_pos (show (s.withUnseen c oc v).a2 = 0 from h0)]
    cases h; rfl
  · rw [if_neg h0] at h
    rw [if_neg (show (s.withUnseen c oc v).a2 ≠ 0 from h0)]
    exact whenInRange_withUnseen h rfl

/-- No command but RXAPPEND and RXPOLL sees a diagnostic or `RXBUF`. -/
theorem exec_withUnseen {i : Instr} (happ : i ≠ .rxappend) (hpoll : i ≠ .rxpoll) (h : exec i s = .next t) :
    exec i (s.withUnseen c oc v) = .next (t.withUnseen t.cerr oc v) := by
  cases i with
  | rxappend => exact absurd rfl happ
  | rxpoll => exact absurd rfl hpoll
  | mdec | mdecA =>
    exact whenInRange_withUnseen h (congrArg (State.countErrors · _ _) (s.writeBits_withUnseen _ _ _ _))
  | fdec | fdecA => exact whenInRange_withUnseen h (congrArg (State.countErrors · _ _) (s.writeBytes_withUnseen _ _))
  | menc | fenc => exact whenInRange_withUnseen h (s.writeBits_withUnseen _ _ _ _)
  | rxget =>
    exact whenInRange_withUnseen h
      (congrArg (fun u => { u.setResult (s.lastlen.setWidth 32) with pktReady := false }) (s.writeBytes_withUnseen _ _))
  | crcchk => exact execCrcchk_withUnseen h
  | _ => exact whenInRange_withUnseen h rfl

/-- `RXBUF` after an append of the bytes WRAM holds in `s` to a buffer that held `v` (R222); as it was where the append is out of
range. -/
def State.bufferAfterAppend (s : State) (v : Vector Byte 60) : Vector Byte 60 :=
  if bytesInRange s.a0 s.accepted then ({ s with rxbuf := v } : State).appended s.accepted else v

theorem execRxappend_rxbuf (h : execRxappend s = .next t) : t.rxbuf = s.bufferAfterAppend s.rxbuf := by
  rw [execRxappend_eq] at h
  unfold State.bufferAfterAppend
  obtain ⟨hok, rfl⟩ | ⟨hok, rfl⟩ := whenInRange_next _ _ _ _ h
  · rw [if_pos hok]
    unfold State.afterAppend
    split <;> rfl
  · rw [hok]; rfl

theorem State.afterAppend_withUnseen (s : State) :
    (s.withUnseen c oc v).afterAppend =
      s.afterAppend.withUnseen c oc (({ s with rxbuf := v } : State).appended s.accepted) := by
  have hcursor : ((s.withUnseen c oc v).appendBytes (s.withUnseen c oc v).accepted).cursor =
      (s.appendBytes s.accepted).cursor := rfl
  unfold State.afterAppend
  rw [hcursor]
  split_ifs <;> rfl

/-- RXAPPEND sees no diagnostic, and of `RXBUF` it only carries the bytes over that it does not write. -/
theorem execRxappend_withUnseen (h : execRxappend s = .next t) :
    execRxappend (s.withUnseen c oc v) = .next (t.withUnseen t.cerr oc (s.bufferAfterAppend v)) := by
  rw [execRxappend_eq] at h ⊢
  rw [State.afterAppend_withUnseen]
  unfold State.bufferAfterAppend
  obtain ⟨hok, rfl⟩ | ⟨hok, rfl⟩ := whenInRange_next _ _ _ _ h
  · rw [if_pos hok]
    exact whenInRange_true _ _ _ hok
  · rw [hok]
    exact whenInRange_false _ _ _ hok

theorem State.resync_withUnseen (s : State) : (s.withUnseen c oc v).resync = s.resync.withUnseen c oc v := by
  unfold State.resync
  by_cases hd : s.resyncDue = true
  · rw [if_pos hd, if_pos (show (s.withUnseen c oc v).resyncDue = true from hd)]; rfl
  · rw [if_neg hd, if_neg (show ¬ (s.withUnseen c oc v).resyncDue = true from hd)]

theorem State.resync_rawReady (s : State) : s.resync.rawReady = s.rawReady := by
  obtain ⟨_, _, -, h⟩ := s.resync_eq
  rw [h]

theorem State.resync_rxbuf (s : State) : s.resync.rxbuf = s.rxbuf := by
  obtain ⟨_, _, -, h⟩ := s.resync_eq
  rw [h]

/-- A decode sees `RXBUF` only while a block waits, and no diagnostic; it writes `OUTCOME` only then. -/
theorem State.decodeStep_withUnseen (s : State) (hv : s.rawReady = true → v = s.rxbuf) :
    (s.withUnseen c oc v).decodeStep =
      s.decodeStep.withUnseen c (if s.rawReady = true then s.decodeStep.outcome else oc) v := by
  unfold State.decodeStep
  by_cases hr : s.rawReady = true
  · rw [if_pos hr, if_pos hr, if_pos (show (s.withUnseen c oc v).rawReady = true from hr), hv hr]
    change (s.withUnseen c oc s.rxbuf).deliver (decodeBlock s.rxbuf) = _
    cases decodeBlock s.rxbuf <;> rfl
  · rw [if_neg hr, if_neg hr, if_neg (show ¬ (s.withUnseen c oc v).rawReady = true from hr)]

/-- RXPOLL sees `RXBUF` only while a block waits, and no diagnostic; it writes `OUTCOME` only then (R226, R277). -/
theorem execRxpoll_withUnseen (hv : s.rawReady = true → v = s.rxbuf) (h : execRxpoll s = .next t) :
    execRxpoll (s.withUnseen c oc v) =
      .next (t.withUnseen t.cerr (if s.rawReady = true then t.outcome else oc) v) := by
  have hv' : s.resync.rawReady = true → v = s.resync.rxbuf := by rwa [State.resync_rawReady, State.resync_rxbuf]
  simp only [execRxpoll, State.resync_withUnseen, State.decodeStep_withUnseen _ hv', State.resync_rawReady] at h ⊢
  cases h
  rfl

end

/-- No command writes `OUTCOME` while no block waits (R39). -/
theorem exec_outcome_of_not_rawReady {i : Instr} {s t : State} (hraw : s.rawReady = false) (h : exec i s = .next t) :
    t.outcome = s.outcome := by
  cases exec_ends h with
  | discarded _ _ _ _ _ hw | delivered _ _ _ _ _ _ hw => exact absurd (hraw.symm.trans hw) (by decide)
  | _ => rfl

/-- No command but RXAPPEND writes `RXBUF` (R46). -/
theorem exec_rxbuf {i : Instr} {s t : State} (happ : i ≠ .rxappend) (h : exec i s = .next t) : t.rxbuf = s.rxbuf := by
  obtain ⟨-, -, -, -, -, -, hbuf, -⟩ := receiveStateIsWrittenOnlyByItsCommands i s t h
  exact not_not.mp fun hne => happ (hbuf hne)

/-- Settles O57: the diagnostics are among what is unseen; `RXBUF` is left as it is. -/
theorem diagnosticsSteerNoCommand : Obligations.DiagnosticsSteerNoCommand := by
  intro i s t c oc h
  change exec i (s.withUnseen c oc s.rxbuf) = _
  by_cases happ : i = .rxappend
  · subst happ
    refine (execRxappend_withUnseen h).trans ?_
    rw [← execRxappend_rxbuf h]; rfl
  have hbuf : t.rxbuf = s.rxbuf := exec_rxbuf happ h
  by_cases hpoll : i = .rxpoll
  · subst hpoll
    refine (execRxpoll_withUnseen (fun _ => rfl) h).trans ?_
    simp only [← hbuf, true_and]; rfl
  · rw [exec_withUnseen happ hpoll h, ← hbuf, if_neg fun hp => hpoll hp.1]
    rfl

end Sys2Proof.Machine

namespace Sys2Proof.Machine

/-! ### The unwritten bytes of `RXBUF` -/

/-- The cursor after an append of the accepted bytes never wraps (R48, R222). -/
theorem State.appendBytes_accepted_cursor (s : State) :
    (s.appendBytes s.accepted).cursor.toNat = s.cursor.toNat + s.accepted := by
  have hlt := s.cursor.isLt
  have hk : s.accepted ≤ 60 - s.cursor.toNat := Nat.min_le_right _ _
  rw [State.appendBytes_cursor, BitVec.toNat_ofNat]
  omega

/-- Buffers that agree below the cursor agree below the new cursor after an append (R222). -/
theorem State.getElem_appended_of_agree (s : State) (v : Vector Byte 60) (k : Nat)
    (h : ∀ j : Fin 60, j.val < s.cursor.toNat → v[j] = s.rxbuf[j]) (j : Fin 60) (hj : j.val < s.cursor.toNat + k) :
    (({ s with rxbuf := v } : State).appended k)[j] = (s.appended k)[j] := by
  simp only [Fin.getElem_fin, State.getElem_appended _ _ _ j.isLt]
  by_cases hc : s.cursor.toNat ≤ j.val
  · rw [if_pos ⟨hc, hj⟩, if_pos ⟨hc, hj⟩]; rfl
  · rw [if_neg fun h' => hc h'.1, if_neg fun h' => hc h'.1]
    exact h j (by omega)

/-- Two states that agree but for unwritten bytes are one state with two buffers. -/
theorem State.agreeButUnwritten_iff (s s' : State) :
    s.AgreeButUnwritten s' ↔ ∃ v, s' = { s with rxbuf := v } ∧ (s.rawReady = true → v = s.rxbuf) ∧
      ∀ j : Fin 60, j.val < s.cursor.toNat → v[j] = s.rxbuf[j] := by
  constructor
  · rintro ⟨h, hraw, hcur⟩
    exact ⟨_, h, hraw, hcur⟩
  · rintro ⟨v, rfl, hraw, hcur⟩
    exact ⟨rfl, hraw, hcur⟩

/-- An append keeps the agreement: it fills the bytes up to the new cursor alike, and all 60 where it completes the block. -/
theorem State.afterAppend_agree (s : State) (v : Vector Byte 60) (hraw : s.rawReady = true → v = s.rxbuf)
    (hcur : ∀ j : Fin 60, j.val < s.cursor.toNat → v[j] = s.rxbuf[j]) (e : CmdError) :
    ({ s.afterAppend with cerr := e } : State).AgreeButUnwritten
      { s.afterAppend with cerr := e, rxbuf := ({ s with rxbuf := v } : State).appended s.accepted } := by
  have hagree := s.getElem_appended_of_agree v s.accepted hcur
  have hcursor := s.appendBytes_accepted_cursor
  rw [State.agreeButUnwritten_iff]
  refine ⟨_, rfl, ?_⟩
  unfold State.afterAppend
  split_ifs with hfull
  · have hall : ({ s with rxbuf := v } : State).appended s.accepted = s.appended s.accepted := by
      rw [hcursor] at hfull
      exact Vector.ext fun j hj => hagree ⟨j, hj⟩ (hfull ▸ hj)
    exact ⟨fun _ => hall, fun j hj => absurd hj (Nat.not_lt_zero _)⟩
  · refine ⟨fun h => ?_, fun j hj => hagree j (hcursor ▸ hj)⟩
    rw [hraw h]; rfl

theorem execRxappend_agree {s t : State} {v : Vector Byte 60} (hraw : s.rawReady = true → v = s.rxbuf)
    (hcur : ∀ j : Fin 60, j.val < s.cursor.toNat → v[j] = s.rxbuf[j]) (h : execRxappend s = .next t) :
    ∃ t', execRxappend { s with rxbuf := v } = .next t' ∧ t.AgreeButUnwritten t' := by
  have hrun := execRxappend_withUnseen (c := s.cerr) (oc := s.outcome) (v := v) h
  refine ⟨_, hrun, ?_⟩
  rw [execRxappend_eq] at h
  unfold State.bufferAfterAppend
  obtain ⟨hok, rfl⟩ | ⟨hok, rfl⟩ := whenInRange_next _ _ _ _ h
  · rw [if_pos hok]
    have hout : s.afterAppend.outcome = s.outcome := by unfold State.afterAppend; split_ifs <;> rfl
    rw [← hout]
    exact s.afterAppend_agree v hraw hcur .ok
  · rw [hok]
    exact (State.agreeButUnwritten_iff _ _).mpr ⟨v, rfl, hraw, hcur⟩

/-- A command other than RXAPPEND begins no byte of a block: a block that waits after it waited before it, and its cursor is where
it was, or at 0. -/
theorem exec_agree_of_ne {i : Instr} {s t : State} {v : Vector Byte 60} (happ : i ≠ .rxappend)
    (hraw : s.rawReady = true → v = s.rxbuf) (hcur : ∀ j : Fin 60, j.val < s.cursor.toNat → v[j] = s.rxbuf[j])
    (h : exec i s = .next t) : t.AgreeButUnwritten { t with rxbuf := v } := by
  obtain ⟨hraw', -, -, -, hcur', -, -, -⟩ := receiveStateIsWrittenOnlyByItsCommands i s t h
  rw [State.agreeButUnwritten_iff, exec_rxbuf happ h]
  refine ⟨v, rfl, fun ht => hraw ?_, fun j hj => hcur j ?_⟩
  · by_contra hs
    obtain ⟨hi, -⟩ | ⟨-, hf⟩ := hraw' (by rw [ht]; exact fun hc => hs hc.symm)
    · exact happ hi
    · exact absurd (ht.symm.trans hf) (by decide)
  · by_cases hsame : t.cursor = s.cursor
    · rwa [hsame] at hj
    · obtain hi | ⟨-, h0⟩ := hcur' hsame
      · exact absurd hi happ
      · rw [h0] at hj
        exact absurd hj (Nat.not_lt_zero _)

/-- Every command takes states that agree but for unwritten bytes to such states. -/
theorem exec_agree {i : Instr} {s s' t : State} (hs : s.AgreeButUnwritten s') (h : exec i s = .next t) :
    ∃ t', exec i s' = .next t' ∧ t.AgreeButUnwritten t' := by
  obtain ⟨v, rfl, hraw, hcur⟩ := (State.agreeButUnwritten_iff _ _).mp hs
  by_cases happ : i = .rxappend
  · subst happ
    exact execRxappend_agree hraw hcur h
  refine ⟨_, ?_, exec_agree_of_ne happ hraw hcur h⟩
  change exec i (s.withUnseen s.cerr s.outcome v) = _
  obtain ⟨-, -, hout, -⟩ := receiveStateIsWrittenOnlyByItsCommands i s t h
  by_cases hpoll : i = .rxpoll
  · subst hpoll
    refine (execRxpoll_withUnseen hraw h).trans ?_
    split_ifs with hwait
    · rfl
    · rw [← exec_outcome_of_not_rawReady (Bool.not_eq_true _ ▸ hwait) h]
      rfl
  · rw [exec_withUnseen happ hpoll h, ← not_not.mp fun hne => hpoll (hout hne)]
    rfl

theorem runCommand_agree {w : Word} {s s' t : State} (hs : s.AgreeButUnwritten s') (h : runCommand w s = .next t) :
    ∃ t', runCommand w s' = .next t' ∧ t.AgreeButUnwritten t' := by
  unfold runCommand at h ⊢
  cases hw : decodeWord w with
  | ok i =>
    rw [hw] at h
    exact exec_agree hs h
  | error e =>
    rw [hw] at h
    cases h
    obtain ⟨v, rfl, hraw, hcur⟩ := (State.agreeButUnwritten_iff _ _).mp hs
    exact ⟨_, rfl, rfl, hraw, hcur⟩

end Sys2Proof.Machine

namespace Sys2Proof.Machine

/-! ### The host's accesses -/

theorem locate_csr {off : Nat} (hlt : off < 0x100) (h4 : off % 4 = 0) : locate .word off = .ok (.csr off) :=
  (locate_eq_csr _ _ _).mpr ⟨rfl, hlt, h4, rfl⟩

/-- A step on a word read of the CSR region. -/
theorem step_read_csr {s : State} {rest : List BusEvent} {off : Nat} (h : s.pending = .read .word off :: rest)
    (hlt : off < 0x100) (h4 : off % 4 = 0) :
    step s = .next { s with pending := rest, replies := s.replies ++ [.word (s.csr off)] } := by
  rw [step_cons _ _ _ h, busEvent, locate_csr hlt h4]; rfl

/-- A step on a byte read of the WRAM region. -/
theorem step_read_wram {s : State} {rest : List BusEvent} {a : Nat} (h : s.pending = .read .byte (0x100 + a) :: rest)
    (ha : a < 256) : step s = .next { s with pending := rest, replies := s.replies ++ [.byte (s.byte a)] } := by
  rw [step_cons _ _ _ h, busEvent, (locate_eq_wram _ _ a).mpr ⟨rfl, ha, rfl⟩]; rfl

/-- A step on a word write of the CSR region. -/
theorem step_write_csr {s : State} {rest : List BusEvent} {off : Nat} {v : Word}
    (h : s.pending = .write .word off v :: rest) (hlt : off < 0x100) (h4 : off % 4 = 0) :
    step s = ({ s with pending := rest } : State).writeCsr off v := by
  rw [step_cons _ _ _ h, busEvent, locate_csr hlt h4]; rfl

/-- A step on a write of `CMD` stores the word and runs it (R31). -/
theorem step_write_cmd {s : State} {rest : List BusEvent} {w : Word} (h : s.pending = .write .word 0x00 w :: rest) :
    step s = runCommand w { s with pending := rest, cmd := w } :=
  step_write_csr h (by decide) (by decide)

/-- What one event does in every state: a reset, a refusal, a read, a write of a CSR, or a write of a byte inside WRAM (R74, R75). -/
theorem busEvent_cases (e : BusEvent) :
    (∀ s, busEvent e s = .next s.resetEvent) ∨ (∃ r, ∀ s, busEvent e s = .refused r) ∨
      (∃ l, ∀ s, busEvent e s = .next { s with replies := s.replies ++ [s.readLocation l] }) ∨
      (∃ off v, ∀ s, busEvent e s = s.writeCsr off v) ∨
      ∃ a v, a < 256 ∧ ∀ s, busEvent e s = .next (s.setByte a v) := by
  cases e with
  | reset => exact .inl fun _ => rfl
  | read width off =>
    cases hl : locate width off with
    | error r => exact .inr (.inl ⟨r, fun s => by rw [busEvent, hl]⟩)
    | ok l => exact .inr (.inr (.inl ⟨l, fun s => by rw [busEvent, hl]⟩))
  | write width off v =>
    cases hl : locate width off with
    | error r => exact .inr (.inl ⟨r, fun s => by rw [busEvent, hl]⟩)
    | ok l =>
      cases l with
      | csr o => exact .inr (.inr (.inr (.inl ⟨o, v, fun s => by rw [busEvent, hl]; rfl⟩)))
      | wram a =>
        obtain ⟨-, ha, -⟩ := (locate_eq_wram _ _ _).mp hl
        exact .inr (.inr (.inr (.inr ⟨a, _, ha, fun s => by rw [busEvent, hl]; rfl⟩)))

/-- A write of any CSR but `CMD`: the operands and `NOW` store the word, every other offset ignores it (R30, R44, R76). -/
theorem State.writeCsr_of_ne_cmd (s : State) {off : Nat} (v : Word) (h0 : off ≠ 0) :
    s.writeCsr off v = .next { s with
      arg0 := if off = 0x04 then v else s.arg0
      arg1 := if off = 0x08 then v else s.arg1
      arg2 := if off = 0x0C then v else s.arg2
      arg3 := if off = 0x10 then v else s.arg3
      now := if off = 0x24 then v else s.now } := by
  unfold State.writeCsr
  split
  case h_1 => exact absurd rfl h0
  case h_7 h4 h8 hC h10 h24 => rw [if_neg h4, if_neg h8, if_neg hC, if_neg h10, if_neg h24]
  all_goals simp

/-- A reserved offset of the CSR region reads 0 (R44). -/
theorem State.csr_reserved (s : State) {off : Nat} (h : 0x30 ≤ off) : s.csr off = 0 := by
  unfold State.csr
  split
  case h_13 => rfl
  all_goals omega

theorem runCommand_ok {w : Word} {i : Instr} (s : State) (h : decodeWord w = .ok i) : runCommand w s = exec i s := by
  rw [runCommand, h]

/-- A write of `CMD` always leaves a next state, with the word and the host's side as they were before its command (R31, R271). -/
theorem runCommand_exists (w : Word) (s : State) :
    ∃ t, runCommand w s = .next t ∧ t.cmd = s.cmd ∧ t.pending = s.pending ∧ t.replies = s.replies := by
  cases hw : decodeWord w with
  | error e => exact ⟨{ s with cerr := .illegal }, by rw [runCommand, hw]; rfl, rfl, rfl, rfl⟩
  | ok i =>
    obtain ⟨t, ht⟩ := exec_exists i s
    obtain ⟨hcmd, -, -, -, -, -, -, hpend, hrep⟩ := commandsKeepCmdOperandsAndTime i s t ht
    exact ⟨t, (runCommand_ok s hw).trans ht, hcmd, hpend, hrep⟩

/-- Settles O4: the write is taken off the queue, stored, and run. -/
theorem stepRunsTheDecodedCommand : Obligations.StepRunsTheDecodedCommand := by
  intro s rest w i h hw _
  rw [step_write_cmd h, runCommand_ok _ hw]

/-- Settles O6: no command writes `CMD` or the queue, so the read that follows finds the word. -/
theorem cmdReadsBackTheWordWritten : Obligations.CmdReadsBackTheWordWritten := by
  intro s rest w h
  obtain ⟨t, ht, hcmd, hpend, hrep⟩ := runCommand_exists w { s with pending := .read .word 0x00 :: rest, cmd := w }
  refine ⟨t, _, (step_write_cmd h).trans ht, step_read_csr hpend (by decide) (by decide), ?_⟩
  rw [hrep, show t.csr 0x00 = w from hcmd]

/-- Settles O7: the read returns `csr` at its offset, each offset's register being an equation of `csr`, or the byte. -/
theorem hostReadReturnsTheLocation : Obligations.HostReadReturnsTheLocation := by
  refine ⟨fun s rest off h hlt h4 => ⟨s.csr off, step_read_csr h hlt h4, ?_⟩, fun s rest a h ha => step_read_wram h ha⟩
  have hzext : ∀ {n : Nat} (x : BitVec n), n ≤ 32 → (x.setWidth 32).toNat = x.toNat := fun x hn =>
    BitVec.toNat_setWidth_of_le hn
  refine ⟨?_, ?_, ?_, ?_, ?_, ?_, ?_, ?_, ?_, ?_, ?_, ?_, s.csr_reserved⟩
  case refine_7 | refine_9 | refine_12 => rintro rfl; exact hzext _ (by decide)
  case refine_10 | refine_11 => rintro rfl; exact BitVec.setWidth_eq _
  all_goals rintro rfl; rfl

/-- Settles O9: the write stores its word at one of the five registers, or nowhere. -/
theorem hostWriteOfACsrStoresOrIsIgnored : Obligations.HostWriteOfACsrStoresOrIsIgnored := by
  intro s rest off v h hlt h4 h0
  rw [step_write_csr h hlt h4, State.writeCsr_of_ne_cmd _ _ h0]

/-- The fields of a word put together as `STATUS` is, over all their values (R35). -/
theorem statusLayout_fields (oc ce : BitVec 3) (pkt raw : Bool) :
    let w : Word := 0#17 ++ oc ++ 0#2 ++ BitVec.ofBool pkt ++ BitVec.ofBool raw ++ 0#5 ++ ce
    w.extractLsb' 0 3 = ce ∧ w.extractLsb' 3 5 = 0 ∧ w.getLsbD 8 = raw ∧ w.getLsbD 9 = pkt ∧
      w.extractLsb' 10 2 = 0 ∧ w.extractLsb' 12 3 = oc ∧ w.extractLsb' 15 17 = 0 := by
  revert oc ce pkt raw
  decide

/-- Settles O8: each field is the part of the word that it was put into. -/
theorem statusWordHoldsItsFields : Obligations.StatusWordHoldsItsFields := by
  intro s
  obtain ⟨hce, h3, hraw, hpkt, h10, hoc, h15⟩ :=
    statusLayout_fields s.outcome.code s.cerr.code s.pktReady s.rawReady
  refine ⟨?_, h3, hraw, hpkt, h10, ?_, h15⟩
  · refine (congrArg BitVec.toNat hce).trans ?_
    cases s.cerr <;> rfl
  · refine (congrArg BitVec.toNat hoc).trans ?_
    cases s.outcome <;> rfl

/-! ### A step on states that agree but for unwritten bytes of `RXBUF` -/

theorem writeCsr_agree {off : Nat} {w : Word} {s s' t : State} (hs : s.AgreeButUnwritten s')
    (h : s.writeCsr off w = .next t) : ∃ t', s'.writeCsr off w = .next t' ∧ t.AgreeButUnwritten t' := by
  obtain ⟨v, rfl, hraw, hcur⟩ := (State.agreeButUnwritten_iff _ _).mp hs
  by_cases h0 : off = 0
  · subst h0
    exact runCommand_agree (s := { s with cmd := w }) ⟨rfl, hraw, hcur⟩ h
  · rw [State.writeCsr_of_ne_cmd _ _ h0] at h
    cases h
    exact ⟨_, State.writeCsr_of_ne_cmd _ _ h0, rfl, hraw, hcur⟩

theorem busEvent_agree {e : BusEvent} {s s' t : State} (hs : s.AgreeButUnwritten s') (h : busEvent e s = .next t) :
    ∃ t', busEvent e s' = .next t' ∧ t.AgreeButUnwritten t' := by
  obtain ⟨v, rfl, hraw, hcur⟩ := (State.agreeButUnwritten_iff _ _).mp hs
  obtain he | ⟨r, he⟩ | ⟨l, he⟩ | ⟨off, w, he⟩ | ⟨a, w, -, he⟩ := busEvent_cases e <;> rw [he] at h ⊢
  · cases h
    exact ⟨_, rfl, rfl, fun _ => rfl, fun _ _ => rfl⟩
  · cases h
  · cases h
    have hread : ({ s with rxbuf := v } : State).readLocation l = s.readLocation l := by cases l <;> rfl
    exact ⟨_, rfl, by rw [hread], hraw, hcur⟩
  · exact writeCsr_agree hs h
  · cases h
    exact ⟨_, rfl, rfl, hraw, hcur⟩

/-- Settles O47: every event takes states that differ only in unwritten bytes of `RXBUF` to such states. -/
theorem unwrittenRxbufIsUnobservable : Obligations.UnwrittenRxbufIsUnobservable := by
  intro s s' t hs h
  cases hq : s.pending with
  | nil =>
    rw [step_nil s hq] at h
    cases h
    exact ⟨s', step_nil s' (by rw [hs.1]; exact hq), hs⟩
  | cons e rest =>
    rw [step_cons s e rest hq] at h
    rw [step_cons s' e rest (by rw [hs.1]; exact hq)]
    obtain ⟨v, rfl, hraw, hcur⟩ := (State.agreeButUnwritten_iff _ _).mp hs
    exact busEvent_agree (s := { s with pending := rest }) ⟨rfl, hraw, hcur⟩ h

end Sys2Proof.Machine

namespace Sys2Proof.Machine

/-! ### The invariant -/

/-- The frame buffer holds the bytes it was given, at their places (R230). -/
theorem take_frameOf (d : List Byte) (m : Nat) (hm : m ≤ d.length) (h9 : d.length ≤ 9) :
    (frameOf d).toList.take m = d.take m := by
  refine List.ext_getElem ?_ fun j h1 h2 => ?_
  · rw [List.length_take, List.length_take, length_frame_toList]; omega
  · have hj : j < d.length := by rw [List.length_take] at h2; omega
    simp [frameOf, hj]

/-- A class has 0, 1 or 3 extra bytes (R201). -/
theorem ClassExtra.eq_or {b7 b6 : Bool} {x : Nat} (h : ClassExtra b7 b6 x) : x = 0 ∨ x = 1 ∨ x = 3 := by
  obtain ⟨-, -, rfl⟩ | ⟨-, -, rfl⟩ | ⟨-, -, rfl⟩ := h <;> decide

/-- Bytes of the length their class asks for whose last is the checksum of the others make a validated frame (R200, R201, R47). -/
theorem validFrame_frameOf (d : List Byte) (x : Nat) (hclass : ClassExtra ((d.getD 4 0).getLsbD 7) ((d.getD 4 0).getLsbD 6) x)
    (hlen : d.length = 6 + x) (hcrc : crc8 d.dropLast = d.getLastD 0) : ValidFrame (frameOf d) d.length where
  length := ⟨x, by rwa [getElem_frameOf d 4 (by decide)], hlen⟩
  checksum := by
    have hx := hclass.eq_or
    have hlast : (frameOf d).toList.getD (d.length - 1) 0 = d.getLastD 0 := by
      have h9 : d.length - 1 < 9 := by omega
      simp [frameOf, List.getD_eq_getElem?_getD, List.getLastD_eq_getLast?, List.getLast?_eq_getElem?, h9]
    rw [take_frameOf d _ (by omega) (by omega), ← List.dropLast_eq_take, hcrc, hlast]
  padded := fun j hj => by
    rw [Fin.getElem_fin, getElem_frameOf d j j.isLt]
    exact List.getD_eq_default _ _ hj

/-- The checksum stage on the bytes a block carries, as many as their class asks for, discards them or delivers a validated frame. -/
theorem checksumStage_carriedBytes (buf : Vector Byte 60) (x : Nat) (hclass : Config.extraBytes (carriedClass buf) = some x) :
    checksumStage (carriedBytes buf (6 + x)) = .discard .crc ∨
      ∃ f n, ValidFrame f n ∧ checksumStage (carriedBytes buf (6 + x)) = .frame f n := by
  obtain ⟨hf, hcrc⟩ | ⟨hf, -⟩ := checksumStage_eq (carriedBytes buf (6 + x))
  · refine .inr ⟨_, _, validFrame_frameOf _ x ?_ (length_carriedBytes _ _) hcrc, hf⟩
    rw [getLsbD_carriedBytes _ _ _ _ (by omega) (by decide), getLsbD_carriedBytes _ _ _ _ (by omega) (by decide)]
    exact (extraBytes_eq_some buf x).mp hclass
  · exact .inl hf

/-- What the decode answers is a discard with an outcome code of its own, or a validated frame with its length (R39, R47, R232). -/
theorem decodeBlock_cases (buf : Vector Byte 60) :
    (∃ oc, oc ≠ .none ∧ decodeBlock buf = .discard oc) ∨ ∃ f n, ValidFrame f n ∧ decodeBlock buf = .frame f n := by
  rw [decodeBlock_eq]
  split_ifs
  · cases hx : Config.extraBytes (carriedClass buf) with
    | none => exact .inl ⟨.lclass, by decide, rfl⟩
    | some x =>
      simp only
      split_ifs
      · obtain h | h := checksumStage_carriedBytes buf x hx
        · exact .inl ⟨.crc, by decide, h⟩
        · exact .inr h
      · exact .inl ⟨.frm2, by decide, rfl⟩
      · exact .inl ⟨.man2, by decide, rfl⟩
  · exact .inl ⟨.frm1, by decide, rfl⟩
  · exact .inl ⟨.man1, by decide, rfl⟩

theorem validFrame_of_decodeBlock {buf : Vector Byte 60} {f : Vector Byte 9} {n : Nat}
    (h : decodeBlock buf = .frame f n) : ValidFrame f n := by
  obtain ⟨oc, -, hd⟩ | ⟨f', n', hvalid, hd⟩ := decodeBlock_cases buf
  · cases hd.symm.trans h
  · cases hd.symm.trans h
    exact hvalid

theorem decodeBlock_ne_discard_none (buf : Vector Byte 60) : decodeBlock buf ≠ .discard .none := by
  intro h
  obtain ⟨oc, hoc, hd⟩ | ⟨f, n, -, hd⟩ := decodeBlock_cases buf
  · cases hd.symm.trans h
    exact hoc rfl
  · cases hd.symm.trans h

theorem ValidFrame.length_bounds {f : Vector Byte 9} {n : Nat} (h : ValidFrame f n) : 0 < n ∧ n ≤ 9 := by
  obtain ⟨x, hx, rfl⟩ := h.length
  have := hx.eq_or
  omega

/-- An update that keeps the last frame, and can only clear the ready flag and leave `NONE`, keeps the invariant. -/
theorem State.Inv.of_same_frame {s t : State} (hs : s.Inv) (hwram : t.wram.wf = true) (hcursor : t.cursor.toNat < 60)
    (hlen : t.lastlen = s.lastlen) (hframe : t.lastFrame = s.lastFrame) (hready : t.pktReady = true → s.pktReady = true)
    (hout : t.outcome = .none → s.outcome = .none) : t.Inv where
  wram := hwram
  cursor := hcursor
  frame := by rw [hlen, hframe]; exact hs.frame
  ready := fun h => hlen ▸ hs.ready (hready h)
  fresh := fun h => hlen ▸ hs.fresh (hout h)

theorem State.Resynced.cursor_lt {s : State} {cur : BitVec 6} {ev : List RadioEvent} (h : s.Resynced cur ev)
    (hs : s.cursor.toNat < 60) : cur.toNat < 60 := by
  obtain ⟨rfl, -⟩ | ⟨rfl, -⟩ := h
  · exact hs
  · decide

/-- Every end of a command keeps the invariant. -/
theorem CommandEnds.inv {i : Instr} {s t : State} (h : CommandEnds s i t) (hs : s.Inv) : t.Inv := by
  cases h with
  | error | read => exact hs.of_same_frame hs.wram hs.cursor rfl rfl id id
  | stored m hm | decoded m e hm => exact hs.of_same_frame (hm hs.wram) hs.cursor rfl rfl id id
  | appendedPart r hc =>
    refine hs.of_same_frame hs.wram ?_ rfl rfl id id
    have hle : s.accepted ≤ 60 - s.cursor.toNat := Nat.min_le_right _ _
    have hlt := hs.cursor
    have hsum := s.appendBytes_accepted_cursor
    change (s.appendBytes s.accepted).cursor.toNat < 60
    omega
  | appendedBlock => exact hs.of_same_frame hs.wram (show 0 < 60 by decide) rfl rfl id id
  | polledQuiet cur ev r hr => exact hs.of_same_frame hs.wram (hr.cursor_lt hs.cursor) rfl rfl id id
  | discarded cur ev r oc hr _ hd =>
    refine hs.of_same_frame hs.wram (hr.cursor_lt hs.cursor) rfl rfl id fun hnone => ?_
    cases hnone
    exact absurd hd (decodeBlock_ne_discard_none _)
  | delivered cur ev r f n hr _ hd =>
    have hvalid := validFrame_of_decodeBlock hd
    obtain ⟨hpos, hle⟩ := hvalid.length_bounds
    have hn : (BitVec.ofNat 4 n).toNat = n := by rw [BitVec.toNat_ofNat]; omega
    exact {
      wram := hs.wram
      cursor := hr.cursor_lt hs.cursor
      frame := .inr (by rw [hn]; exact hvalid)
      ready := fun _ h0 => by rw [show BitVec.ofNat 4 n = 0 from h0] at hn; exact absurd hn (by simp; omega)
      fresh := nofun }
  | got m r hm => exact hs.of_same_frame (hm hs.wram) hs.cursor rfl rfl nofun id

theorem runCommand_inv {w : Word} {s t : State} (hs : s.Inv) (h : runCommand w s = .next t) : t.Inv := by
  cases hw : decodeWord w with
  | ok i => exact (exec_ends (runCommand_ok s hw ▸ h)).inv hs
  | error e =>
    rw [runCommand, hw] at h
    cases h
    exact hs.of_same_frame hs.wram hs.cursor rfl rfl id id

theorem writeCsr_inv {off : Nat} {v : Word} {s t : State} (hs : s.Inv) (h : s.writeCsr off v = .next t) : t.Inv := by
  by_cases h0 : off = 0
  · subst h0
    exact runCommand_inv (s := { s with cmd := v }) (hs.of_same_frame hs.wram hs.cursor rfl rfl id id) h
  · rw [State.writeCsr_of_ne_cmd _ _ h0] at h
    cases h
    exact hs.of_same_frame hs.wram hs.cursor rfl rfl id id

/-- The state that the reset input leaves meets the invariant, from any state (R291). -/
theorem State.resetEvent_inv (s : State) : s.resetEvent.Inv where
  wram := rfl
  cursor := show 0 < 60 by decide
  frame := .inl ⟨rfl, rfl⟩
  ready := nofun
  fresh := fun _ => rfl

theorem busEvent_inv {e : BusEvent} {s t : State} (hs : s.Inv) (h : busEvent e s = .next t) : t.Inv := by
  obtain he | ⟨r, he⟩ | ⟨l, he⟩ | ⟨off, v, he⟩ | ⟨a, v, ha, he⟩ := busEvent_cases e <;> rw [he] at h
  · cases h; exact s.resetEvent_inv
  · cases h
  · cases h; exact hs.of_same_frame hs.wram hs.cursor rfl rfl id id
  · exact writeCsr_inv hs h
  · cases h; exact hs.of_same_frame (Memory.wf_set _ _ _ hs.wram ha) hs.cursor rfl rfl id id

/-- Settles O60: every event keeps the invariant, a command by its end and a delivered frame by the decode's checks. -/
theorem stepKeepsTheInvariant : Obligations.StepKeepsTheInvariant := by
  intro s t hs h
  cases hq : s.pending with
  | nil =>
    rw [step_nil s hq] at h
    cases h
    exact hs
  | cons e rest =>
    rw [step_cons s e rest hq] at h
    exact busEvent_inv (s := { s with pending := rest }) (hs.of_same_frame hs.wram hs.cursor rfl rfl id id) h

end Sys2Proof.Machine

/-! ## The memory: the window, the accesses it refuses, and the bytes each command writes (20_memory.md) -/

namespace Sys2Proof.Machine

/-! ### The window and the accesses refused -/

/-- Settles O12: the offset is the distance from the base, where it is less than the window's 512 bytes. -/
theorem windowIs512BytesFromItsBase : Obligations.WindowIs512BytesFromItsBase := by
  intro base addr off
  unfold windowOffset Config.windowBytes
  split_ifs with hin
  · rw [Option.some.injEq]; omega
  · exact iff_of_false nofun (by omega)

/-- An access goes nowhere exactly where R75 gives it no meaning: the wrong width or alignment in the CSR region, the wrong width in the
WRAM region, or an offset past both. -/
theorem locate_error_iff (width : AccessWidth) (off : Nat) :
    (∃ r, locate width off = .error r) ↔
      (off < 0x100 ∧ (width ≠ .word ∨ off % 4 ≠ 0)) ∨ (0x100 ≤ off ∧ off < 0x200 ∧ width ≠ .byte) ∨ 0x200 ≤ off := by
  unfold locate Config.wramWindow Config.windowBytes
  split_ifs with hcsr hword halign hwram hbyte
  · exact iff_of_true ⟨_, rfl⟩ (.inl ⟨hcsr, .inl hword⟩)
  · exact iff_of_true ⟨_, rfl⟩ (.inl ⟨hcsr, .inr halign⟩)
  · refine iff_of_false nofun ?_
    rintro (⟨-, h | h⟩ | ⟨h, -⟩ | h)
    · exact hword h
    · exact halign h
    · omega
    · omega
  · exact iff_of_true ⟨_, rfl⟩ (.inr (.inl ⟨not_lt.mp hcsr, hwram, hbyte⟩))
  · refine iff_of_false nofun ?_
    rintro (⟨h, -⟩ | ⟨-, -, h⟩ | h)
    · omega
    · exact hbyte h
    · omega
  · exact iff_of_true ⟨_, rfl⟩ (.inr (.inr (not_lt.mp hwram)))

/-- A write of a location that an access reaches always leaves a next state. -/
theorem State.writeLocation_exists (s : State) (l : Location) (v : Word) : ∃ t, s.writeLocation l v = .next t := by
  cases l with
  | wram a => exact ⟨_, rfl⟩
  | csr off =>
    by_cases h0 : off = 0
    · subst h0
      obtain ⟨t, ht, -⟩ := runCommand_exists v { s with cmd := v }
      exact ⟨t, ht⟩
    · exact ⟨_, s.writeCsr_of_ne_cmd v h0⟩

/-- An event is refused exactly where it is an access that goes nowhere; a reset never is, and no command refuses. -/
theorem busEvent_refused_iff (e : BusEvent) (s : State) :
    (∃ r, busEvent e s = .refused r) ↔
      ∃ width off, (e = .read width off ∨ ∃ v, e = .write width off v) ∧ ∃ r, locate width off = .error r := by
  constructor
  · rintro ⟨r, h⟩
    cases e with
    | reset => cases h
    | read width off =>
      cases hl : locate width off with
      | error r' => exact ⟨width, off, .inl rfl, r', hl⟩
      | ok l => rw [busEvent, hl] at h; cases h
    | write width off v =>
      cases hl : locate width off with
      | error r' => exact ⟨width, off, .inr ⟨v, rfl⟩, r', hl⟩
      | ok l =>
        obtain ⟨t, ht⟩ := s.writeLocation_exists l v
        rw [busEvent, hl] at h
        cases ht.symm.trans h
  · rintro ⟨width, off, rfl | ⟨v, rfl⟩, r, hl⟩
    all_goals exact ⟨r, by rw [busEvent, hl]⟩

/-- Settles O11: a step with an event to come is refused as that event is, and an idle step never is. -/
theorem onlyMeaninglessAccessesAreRefused : Obligations.OnlyMeaninglessAccessesAreRefused := by
  intro s
  simp only [← locate_error_iff]
  cases hq : s.pending with
  | nil => simp [step_nil s hq]
  | cons e rest =>
    rw [step_cons s e rest hq, busEvent_refused_iff]
    simp [exists_or]

/-! ### A byte written by the host -/

/-- A step on a byte write of the WRAM region. -/
theorem step_write_wram {s : State} {rest : List BusEvent} {a : Nat} {v : Word}
    (h : s.pending = .write .byte (0x100 + a) v :: rest) (ha : a < 256) :
    step s = .next (({ s with pending := rest } : State).setByte a (v.extractLsb' 0 8)) := by
  rw [step_cons _ _ _ h, busEvent, (locate_eq_wram _ _ a).mpr ⟨rfl, ha, rfl⟩]; rfl

/-- Settles O10: the write is one `setByte`, which touches WRAM alone. -/
theorem hostWriteOfAWramByteStoresIt : Obligations.HostWriteOfAWramByteStoresIt := by
  intro s rest a v h ha
  exact ⟨_, step_write_wram h ha, rfl, fun b => State.byte_setByte _ a b _⟩

/-! ### The bytes that a command's output leaves -/

/-- Writing a stream leaves every byte that holds none of its bits. -/
theorem State.byte_writeBits_of_outside (s : State) {base start : Nat} {ord : BitOrder} {l : List (Option Bool)} {a : Nat}
    (h : ∀ p, start ≤ p → p < start + l.length → a ≠ base + p / 8) : (s.writeBits base start ord l).byte a = s.byte a := by
  refine BitVec.eq_of_getLsbD_eq fun k hk => ?_
  rw [State.getLsbD_writeBits _ _ _ _ _ _ _ hk, if_neg]
  rintro ⟨hbase, hlo, hhi⟩
  have hplace := bitPlace_lt ord k
  exact h _ hlo hhi (by omega)

/-- Writing bytes leaves every other byte. -/
theorem State.byte_writeBytes_of_outside (s : State) {base : Nat} {l : List Byte} {a : Nat}
    (h : ∀ j, j < l.length → a ≠ base + j) : (s.writeBytes base l).byte a = s.byte a := by
  rw [State.byte_writeBytes, if_neg]
  rintro ⟨hlo, hhi⟩
  exact h (a - base) (by omega) (by omega)

/-- Writing a bit leaves every byte but its own. -/
theorem State.byte_bitWrite_of_ne (s : State) {base i a : Nat} {ord : BitOrder} {v : Bool} (h : a ≠ base + i / 8) :
    (s.bitWrite base i ord v).byte a = s.byte a :=
  (s.byte_setByte _ _ _).trans (if_neg h)

/-- MENC's stream has two physical bits for each bit read (R161). -/
theorem length_manEncode_readBits (B : Nat → Byte) (base start n : Nat) (ord : BitOrder) :
    (manEncode (readBits B base start n ord)).length = 2 * n := by
  rw [readBits_eq_stream, manEncode_stream, length_stream]

/-- FENC's stream has ten bits for each byte read and the trailing marker (R181). -/
theorem length_frmEncode_readBits (B : Nat → Byte) (base start n : Nat) (ord : BitOrder) :
    (frmEncode (readBits B base start (8 * n) ord)).length = 10 * n + 1 := by
  rw [readBits_eq_stream, show 8 * n = 4 * (2 * n) by ring, frmEncode_stream, length_stream]
  ring

/-- FDEC's output has a byte for every ten bits read (R180). -/
theorem length_frmBytes_readBits (B : Nat → Byte) (base start n : Nat) (ord : BitOrder) :
    (frmBytes (readBits B base start (10 * n) ord)).length = n := by
  rw [readBits_eq_stream, length_frmBytes_stream]

/-! ### The bytes a command leaves (R73) -/

section
variable {s t : State} {a : Nat}

/-- A guarded command leaves every byte that its operation leaves: its range error leaves all. -/
theorem whenInRange_byte {ok : Bool} {op : State} (h : whenInRange ok s op = .next t) (hop : op.byte a = s.byte a) :
    t.byte a = s.byte a := by
  obtain ⟨-, rfl⟩ | ⟨-, rfl⟩ := whenInRange_next _ _ _ _ h
  · exact hop
  · rfl

theorem manDecodeCmd_byte {acc : Bool} (h : manDecodeCmd acc s = .next t) (hw : ¬ ∃ p, p < s.a2 ∧ a = s.a1 + p / 8) :
    t.byte a = s.byte a := by
  refine whenInRange_byte h (s.byte_writeBits_of_outside fun p _ hp ha => hw ⟨p, ?_, ha⟩)
  rwa [length_manDec, Nat.zero_add] at hp

theorem frmDecodeCmd_byte {acc : Bool} (h : frmDecodeCmd acc s = .next t) (hw : ¬ ∃ j, j < s.a2 ∧ a = s.a1 + j) :
    t.byte a = s.byte a := by
  refine whenInRange_byte h (s.byte_writeBytes_of_outside fun j hj ha => hw ⟨j, ?_, ha⟩)
  rwa [length_frmBytes_readBits] at hj

theorem execMenc_byte (h : execMenc s = .next t) (hw : ¬ ∃ p, s.a3 ≤ p ∧ p < s.a3 + 2 * s.a2 ∧ a = s.a1 + p / 8) :
    t.byte a = s.byte a := by
  refine whenInRange_byte h (s.byte_writeBits_of_outside fun p hlo hp ha => hw ⟨p, hlo, ?_, ha⟩)
  rwa [List.length_map, length_manEncode_readBits] at hp

theorem execFenc_byte (h : execFenc s = .next t) (hw : ¬ ∃ p, p ≤ 10 * s.a2 ∧ a = s.a1 + p / 8) :
    t.byte a = s.byte a := by
  refine whenInRange_byte h (s.byte_writeBits_of_outside fun p _ hp ha => hw ⟨p, ?_, ha⟩)
  rw [List.length_map, length_frmEncode_readBits] at hp
  omega

theorem execRxget_byte (h : execRxget s = .next t) (hw : ¬ ∃ j, j ≤ 8 ∧ a = s.a1 + j) : t.byte a = s.byte a := by
  refine whenInRange_byte h (s.byte_writeBytes_of_outside fun j hj ha => hw ⟨j, ?_, ha⟩)
  rw [length_frame_toList] at hj
  omega

theorem execCrcchk_byte (h : execCrcchk s = .next t) : t.byte a = s.byte a := by
  unfold execCrcchk at h
  split at h
  · cases h; rfl
  · exact whenInRange_byte h rfl

/-- An append reads WRAM and writes `RXBUF` (R222). -/
theorem execRxappend_byte (h : execRxappend s = .next t) : t.byte a = s.byte a := by
  rw [execRxappend_eq] at h
  refine whenInRange_byte h ?_
  unfold State.afterAppend
  split <;> rfl

/-- A poll neither reads nor writes WRAM: not in its resync and not in its decode (R226, R236). -/
theorem execRxpoll_byte (h : execRxpoll s = .next t) : t.byte a = s.byte a := by
  have hresync : s.resync.byte a = s.byte a := by
    obtain ⟨_, _, -, hres⟩ := s.resync_eq
    rw [hres]; rfl
  have hdecode : s.resync.decodeStep.byte a = s.resync.byte a := by
    obtain ⟨-, hdec⟩ | ⟨-, ⟨_, -, hdec⟩ | ⟨_, _, -, hdec⟩⟩ := s.resync.decodeStep_cases <;> rw [hdec] <;> rfl
  cases h
  exact hdecode.trans hresync

end

/-- Settles O58: each command's output, laid over WRAM, lies within the bytes of its row. -/
theorem commandsWriteOnlyTheirBytes : Obligations.CommandsWriteOnlyTheirBytes := by
  intro i s t a h hw
  cases i with
  | setbit | setbitL | clrbit | clrbitL | defbit | defbitL => exact whenInRange_byte h (s.byte_bitWrite_of_ne hw)
  | setnib | setnibL => exact whenInRange_byte h ((s.byte_setByte _ _ _).trans (if_neg hw))
  | getbit | getbitL | getnib | getnibL | crc8 => exact whenInRange_byte h rfl
  | mdec | mdecA => exact manDecodeCmd_byte h hw
  | menc => exact execMenc_byte h hw
  | fdec | fdecA => exact frmDecodeCmd_byte h hw
  | fenc => exact execFenc_byte h hw
  | crcchk => exact execCrcchk_byte h
  | rxappend => exact execRxappend_byte h
  | rxpoll => exact execRxpoll_byte h
  | rxget => exact execRxget_byte h hw

end Sys2Proof.Machine

/-! ## The encoding: fields, decoder and encoder agree, and a command in range completes (30_encoding.md) -/

namespace Sys2Proof

/-! ### The fields of a word -/

/-- The five fields of R100 leave out no bit, so they determine the word. -/
theorem CmdFields.ofWord_injective : Function.Injective CmdFields.ofWord := by
  intro v w h
  simp only [CmdFields.ofWord, CmdFields.mk.injEq] at h
  obtain ⟨hop, hlow, hord, hacc, hhigh⟩ := h
  -- bit `start + k` of the word is bit `k` of the field of `n` bits from `start` on
  have hfield {start n k : Nat} (hf : v.extractLsb' start n = w.extractLsb' start n) (hk : k < n) :
      v.getLsbD (start + k) = w.getLsbD (start + k) := by
    simpa [BitVec.getLsbD_extractLsb', hk] using congrArg (·.getLsbD k) hf
  refine BitVec.eq_of_getLsbD_eq fun j hj => ?_
  obtain hj | hj | rfl | rfl | hj : j < 5 ∨ (5 ≤ j ∧ j < 8) ∨ j = 8 ∨ j = 9 ∨ 10 ≤ j := by omega
  · simpa using hfield hop hj
  · have := hfield hlow (k := j - 5) (by omega)
    rwa [Nat.add_sub_cancel' hj.1] at this
  · exact hord
  · exact hacc
  · have := hfield hhigh (k := j - 10) (by omega)
    rwa [Nat.add_sub_cancel' hj] at this

/-- The opcode is the word modulo 32 (R100). -/
theorem CmdFields.ofWord_op_toNat (w : Word) : (CmdFields.ofWord w).op.toNat = w.toNat % 32 := by
  simp [CmdFields.ofWord, BitVec.extractLsb'_toNat]

/-- Each word of R108 has the fields its command is written with. -/
theorem CmdFields.ofWord_encode (i : Instr) : CmdFields.ofWord (encode i) = i.fields := by
  cases i <;> rfl

/-! ### The rows of the opcode map (R102) -/

theorem exists_rows_of_mem_ordOpcodes : ∀ op ∈ ordOpcodes, ∃ a b : Instr,
    a.fields = ⟨op, 0, false, false, 0⟩ ∧ b.fields = ⟨op, 0, true, false, 0⟩ := by
  simp only [ordOpcodes, List.forall_mem_cons]
  exact ⟨⟨.setbit, .setbitL, rfl, rfl⟩, ⟨.clrbit, .clrbitL, rfl, rfl⟩, ⟨.defbit, .defbitL, rfl, rfl⟩,
    ⟨.getbit, .getbitL, rfl, rfl⟩, ⟨.setnib, .setnibL, rfl, rfl⟩, ⟨.getnib, .getnibL, rfl, rfl⟩, nofun⟩

theorem exists_rows_of_mem_accOpcodes : ∀ op ∈ accOpcodes, ∃ a b : Instr,
    a.fields = ⟨op, 0, false, false, 0⟩ ∧ b.fields = ⟨op, 0, false, true, 0⟩ := by
  simp only [accOpcodes, List.forall_mem_cons]
  exact ⟨⟨.mdec, .mdecA, rfl, rfl⟩, ⟨.fdec, .fdecA, rfl, rfl⟩, nofun⟩

theorem exists_row_of_mem_plainOpcodes : ∀ op ∈ plainOpcodes, ∃ a : Instr, a.fields = ⟨op, 0, false, false, 0⟩ := by
  simp only [plainOpcodes, List.forall_mem_cons]
  exact ⟨⟨.menc, rfl⟩, ⟨.fenc, rfl⟩, ⟨.crc8, rfl⟩, ⟨.crcchk, rfl⟩, ⟨.rxappend, rfl⟩, ⟨.rxpoll, rfl⟩, ⟨.rxget, rfl⟩, nofun⟩

theorem not_mem_accOpcodes_of_mem_ordOpcodes : ∀ op ∈ ordOpcodes, op ∉ accOpcodes := by decide

theorem not_mem_ordOpcodes_of_mem_accOpcodes : ∀ op ∈ accOpcodes, op ∉ ordOpcodes := by decide

theorem not_mem_modified_of_mem_plainOpcodes : ∀ op ∈ plainOpcodes, op ∉ ordOpcodes ∧ op ∉ accOpcodes := by decide

/-- Every command breaks no clause of R104. -/
theorem Instr.wf_eq_true (i : Instr) : i.wf = true := by
  cases i <;> rfl

/-- The clauses of R104 as propositions. -/
theorem CmdFields.wf_iff (f : CmdFields) : f.wf = true ↔
    f.rsv7to5 = 0 ∧ f.rsv31to10 = 0 ∧ (f.op ∈ ordOpcodes ∨ f.op ∈ accOpcodes ∨ f.op ∈ plainOpcodes) ∧
      (f.ord = true → f.op ∈ ordOpcodes) ∧ (f.acc = true → f.op ∈ accOpcodes) := by
  simp only [CmdFields.wf, CmdFields.lowReservedZero, CmdFields.highReservedZero, CmdFields.opcodeKnown,
    CmdFields.ordLegal, CmdFields.accLegal, Bool.and_eq_true, decide_eq_true_eq, and_assoc]

/-- Fields that break no clause of R104 are the fields of a command. -/
theorem CmdFields.exists_instr_of_wf {f : CmdFields} (h : f.wf = true) : ∃ i : Instr, f = i.fields := by
  obtain ⟨hlow, hhigh, hop, hord, hacc⟩ := f.wf_iff.mp h
  obtain ⟨op, low, ord, acc, high⟩ := f
  dsimp only at *
  subst hlow hhigh
  obtain hop | hop | hop := hop
  · obtain rfl : acc = false := Bool.eq_false_iff.mpr (not_mem_accOpcodes_of_mem_ordOpcodes op hop ∘ hacc)
    obtain ⟨a, b, ha, hb⟩ := exists_rows_of_mem_ordOpcodes op hop
    cases ord
    · exact ⟨a, ha.symm⟩
    · exact ⟨b, hb.symm⟩
  · obtain rfl : ord = false := Bool.eq_false_iff.mpr (not_mem_ordOpcodes_of_mem_accOpcodes op hop ∘ hord)
    obtain ⟨a, b, ha, hb⟩ := exists_rows_of_mem_accOpcodes op hop
    cases acc
    · exact ⟨a, ha.symm⟩
    · exact ⟨b, hb.symm⟩
  · obtain ⟨hnord, hnacc⟩ := not_mem_modified_of_mem_plainOpcodes op hop
    obtain rfl : ord = false := Bool.eq_false_iff.mpr (hnord ∘ hord)
    obtain rfl : acc = false := Bool.eq_false_iff.mpr (hnacc ∘ hacc)
    obtain ⟨a, ha⟩ := exists_row_of_mem_plainOpcodes op hop
    exact ⟨a, ha.symm⟩

/-! ### The decoder, over the fields -/

section
variable {op : BitVec 5} {ord acc : Bool} {a b i : Instr}

theorem orderedForm_fields (h : orderedForm ord acc a b = .ok i) (ha : a.fields = ⟨op, 0, false, false, 0⟩)
    (hb : b.fields = ⟨op, 0, true, false, 0⟩) : i.fields = ⟨op, 0, ord, acc, 0⟩ := by
  cases acc with
  | true => cases h
  | false =>
    cases h
    cases ord
    · exact ha
    · exact hb

theorem accumForm_fields (h : accumForm ord acc a b = .ok i) (ha : a.fields = ⟨op, 0, false, false, 0⟩)
    (hb : b.fields = ⟨op, 0, false, true, 0⟩) : i.fields = ⟨op, 0, ord, acc, 0⟩ := by
  cases ord with
  | true => cases h
  | false =>
    cases h
    cases acc
    · exact ha
    · exact hb

theorem plainForm_fields (h : plainForm ord acc a = .ok i) (ha : a.fields = ⟨op, 0, false, false, 0⟩) :
    i.fields = ⟨op, 0, ord, acc, 0⟩ := by
  cases ord with
  | true => cases h
  | false =>
    cases acc with
    | true => cases h
    | false => cases h; exact ha

end

/-- What the opcode map answers is a command of that opcode, with those modifiers. -/
theorem decodeOp_fields {op : Nat} {ord acc : Bool} {i : Instr} (h : decodeOp op ord acc = .ok i) :
    i.fields = ⟨BitVec.ofNat 5 op, 0, ord, acc, 0⟩ := by
  unfold decodeOp at h
  split at h
  case h_1 | h_2 | h_3 | h_4 | h_5 | h_6 => exact orderedForm_fields h rfl rfl
  case h_7 | h_9 => exact accumForm_fields h rfl rfl
  case h_8 | h_10 | h_11 | h_12 | h_13 | h_14 | h_15 => exact plainForm_fields h rfl
  case h_16 => cases h

/-- The opcode map finds every command by its opcode and modifiers. -/
theorem decodeOp_of_fields (i : Instr) : decodeOp i.fields.op.toNat i.fields.ord i.fields.acc = .ok i := by
  cases i <;> rfl

theorem decodeWord_ok_iff (w : Word) (i : Instr) : decodeWord w = .ok i ↔
    (CmdFields.ofWord w).rsv7to5 = 0 ∧ (CmdFields.ofWord w).rsv31to10 = 0 ∧
      decodeOp (CmdFields.ofWord w).op.toNat (CmdFields.ofWord w).ord (CmdFields.ofWord w).acc = .ok i := by
  unfold decodeWord CmdFields.ofWord
  split_ifs with hlow hhigh
  · exact iff_of_false nofun fun h => hlow h.1
  · exact iff_of_false nofun fun h => hhigh h.2.1
  · exact ⟨fun h => ⟨not_not.mp hlow, not_not.mp hhigh, h⟩, fun h => h.2.2⟩

/-- A word decodes to a command exactly when it has that command's fields: the one fact about the decoder that the statements below
rest on. -/
theorem decodeWord_ok_iff_fields (w : Word) (i : Instr) : decodeWord w = .ok i ↔ CmdFields.ofWord w = i.fields := by
  rw [decodeWord_ok_iff]
  constructor
  · rintro ⟨hlow, hhigh, hop⟩
    rw [decodeOp_fields hop, BitVec.ofNat_toNat, BitVec.setWidth_eq, ← hlow, ← hhigh]
  · intro h
    rw [h]
    obtain ⟨hlow, hhigh, -⟩ := i.fields.wf_iff.mp i.wf_eq_true
    exact ⟨hlow, hhigh, decodeOp_of_fields i⟩

theorem decodeWord_ok_iff_encode (w : Word) (i : Instr) : decodeWord w = .ok i ↔ w = encode i := by
  rw [decodeWord_ok_iff_fields, ← CmdFields.ofWord_encode, CmdFields.ofWord_injective.eq_iff]

theorem decodeWord_encode (i : Instr) : decodeWord (encode i) = .ok i :=
  (decodeWord_ok_iff_encode _ _).mpr rfl

/-- The decoder and the legality rule agree (R104). -/
theorem exists_decodeWord_iff_wf (w : Word) : (∃ i, decodeWord w = .ok i) ↔ (CmdFields.ofWord w).wf = true := by
  simp only [decodeWord_ok_iff_fields]
  constructor
  · rintro ⟨i, hi⟩
    rw [hi]
    exact i.wf_eq_true
  · exact CmdFields.exists_instr_of_wf

/-- No command has a reserved opcode (R105). -/
theorem Instr.fields_op_not_reserved (i : Instr) :
    ¬ (i.fields.op.toNat ∈ [0x00, 0x07, 0x0E, 0x0F] ∨ 0x13 ≤ i.fields.op.toNat) := by
  cases i <;> decide

/-! ### The statements about the decoder -/

/-- Settles O13: both sides say that the word has the command's fields. -/
theorem exactlyTheEncodedWordsDecode : Obligations.ExactlyTheEncodedWordsDecode :=
  decodeWord_ok_iff_encode

/-- Settles O14. -/
theorem decodableIffTheFieldsAreLegal : Obligations.DecodableIffTheFieldsAreLegal :=
  ⟨exists_decodeWord_iff_wf, fun i => ⟨CmdFields.ofWord_encode i, i.wf_eq_true⟩⟩

/-- Settles O15: each of the words is the encoding of its command. -/
theorem writtenOutWordsDecode : Obligations.WrittenOutWordsDecode :=
  ⟨decodeWord_encode .setbitL, decodeWord_encode .getnib, decodeWord_encode .mdecA, decodeWord_encode .fenc,
    decodeWord_encode .crcchk, decodeWord_encode .rxpoll⟩

/-- Settles O16: a word that decodes has the opcode of a command. -/
theorem reservedOpcodesAreIllegal : Obligations.ReservedOpcodesAreIllegal := by
  intro w hw i h
  rw [← CmdFields.ofWord_op_toNat, (decodeWord_ok_iff_fields w i).mp h] at hw
  exact i.fields_op_not_reserved hw

/-! ### The bytes a command touches -/

/-- The touched bytes are in range exactly when those read are and those written are (R73). -/
theorem Instr.inRange_iff (i : Instr) (s : Machine.State) :
    i.inRange s ↔ (∀ a, i.reads s a → a < 256) ∧ ∀ a, i.writes s a → a < 256 := by
  simp only [Instr.inRange, or_imp, forall_and]

end Sys2Proof

namespace Sys2Proof.Machine

/-! ### A word that is no command -/

/-- A word that breaks a clause of R104 raises `ILLEGAL`. -/
theorem runCommand_illegal {w : Word} (s : State) (hw : (CmdFields.ofWord w).wf = false) :
    runCommand w s = .next { s with cerr := .illegal } := by
  cases h : decodeWord w with
  | error e => rw [runCommand, h]; rfl
  | ok i => exact absurd ((exists_decodeWord_iff_wf w).mp ⟨i, h⟩) (Bool.eq_false_iff.mp hw)

/-- Settles O5: the word is stored, and running it raises `ILLEGAL`. -/
theorem illegalWordChangesOnlyCerr : Obligations.IllegalWordChangesOnlyCerr := by
  intro s rest w h hw
  rw [step_write_cmd h, runCommand_illegal _ hw]

/-! ### The range check of a command is the check of the bytes it touches (R72, R73, R109) -/

/-- The stream check, over addresses. -/
theorem bitsInRange_iff_forall_addr (base start n : Nat) : bitsInRange base start n = true ↔
    ∀ a, (∃ p, start ≤ p ∧ p < start + n ∧ a = base + p / 8) → a < 256 := by
  rw [bitsInRange_iff_forall]
  exact ⟨fun h a ⟨p, hlo, hhi, ha⟩ => ha ▸ h p hlo hhi, fun h p hlo hhi => h _ ⟨p, hlo, hhi, rfl⟩⟩

/-- The stream check of a stream from its first bit on, over addresses. -/
theorem bitsInRange_zero_iff_forall_addr (base n : Nat) : bitsInRange base 0 n = true ↔
    ∀ a, (∃ p, p < n ∧ a = base + p / 8) → a < 256 := by
  simp [bitsInRange_iff_forall_addr]

/-- The byte check, over addresses. -/
theorem bytesInRange_iff_forall_addr (base n : Nat) : bytesInRange base n = true ↔
    ∀ a, (∃ j, j < n ∧ a = base + j) → a < 256 := by
  rw [bytesInRange_iff_forall]
  exact ⟨fun h a ⟨j, hj, ha⟩ => ha ▸ h j hj, fun h j hj => h _ ⟨j, hj, rfl⟩⟩

/-- Past its operand check (CRCCHK's length), every command is one operation guarded by a range check, and the check passes exactly where
every byte the command touches is in range (R109 steps 2 to 5). -/
theorem exec_guarded (i : Instr) (s : State) (hlen : i = .crcchk → s.arg2 ≠ 0) :
    ∃ ok op, exec i s = whenInRange ok s op ∧ (ok = true ↔ i.inRange s) := by
  simp only [Instr.inRange_iff]
  cases i with
  | setbit | setbitL | clrbit | clrbitL | defbit | defbitL | getbit | getbitL | setnib | setnibL | getnib | getnibL =>
    exact ⟨_, _, rfl, by simp [inRange_iff, Instr.reads, Instr.writes]⟩
  | mdec | mdecA =>
    exact ⟨_, _, rfl, Bool.and_eq_true_iff.trans
      (and_congr (bitsInRange_iff_forall_addr _ _ _) (bitsInRange_zero_iff_forall_addr _ _))⟩
  | menc =>
    exact ⟨_, _, rfl, Bool.and_eq_true_iff.trans
      (and_congr (bitsInRange_zero_iff_forall_addr _ _) (bitsInRange_iff_forall_addr _ _ _))⟩
  | fdec | fdecA =>
    exact ⟨_, _, rfl, Bool.and_eq_true_iff.trans
      (and_congr (bitsInRange_zero_iff_forall_addr _ _) (bytesInRange_iff_forall_addr _ _))⟩
  | fenc =>
    refine ⟨_, _, rfl, Bool.and_eq_true_iff.trans (and_congr (bytesInRange_iff_forall_addr _ _) ?_)⟩
    simpa only [Instr.writes, Nat.lt_succ_iff] using bitsInRange_zero_iff_forall_addr s.a1 (10 * s.a2 + 1)
  | crc8 =>
    exact ⟨_, _, rfl, (bytesInRange_iff_forall_addr _ _).trans (and_iff_left nofun).symm⟩
  | crcchk =>
    have hne : s.a2 ≠ 0 := fun h => hlen rfl (BitVec.eq_of_toNat_eq h)
    exact ⟨_, _, if_neg hne, (bytesInRange_iff_forall_addr _ _).trans (and_iff_left nofun).symm⟩
  | rxappend =>
    exact ⟨_, _, execRxappend_eq s, (bytesInRange_iff_forall_addr _ _).trans (and_iff_left nofun).symm⟩
  | rxpoll => exact ⟨true, _, rfl, iff_of_true rfl ⟨nofun, nofun⟩⟩
  | rxget =>
    refine ⟨_, _, rfl, (bytesInRange_iff_forall_addr _ _).trans (Iff.trans ?_ (and_iff_right nofun).symm)⟩
    simp only [Instr.writes, Config.maxFrameBytes, Nat.lt_succ_iff]

/-- Settles O49: where the guard passes, the operation is done and the command completes. -/
theorem commandsInRangeComplete : Obligations.CommandsInRangeComplete := by
  intro i s hin hlen
  obtain ⟨ok, op, hexec, hok⟩ := exec_guarded i s hlen
  exact ⟨_, hexec.trans (whenInRange_true _ _ _ (hok.mpr hin)), rfl⟩

end Sys2Proof.Machine

/-! ## The BitBuffer: single bits and nibbles under both orderings (40_bitbuffer.md) -/

namespace Sys2Proof.Machine

/-- A command with a row for each ordering runs under the ordering of its row (R102, R107). -/
theorem exec_of_mem_rows {cmd : BitOrder → State → Host.Outcome State Fault Refusal} {s : State} {i iMsb iLsb : Instr}
    {ord : BitOrder} (hmsb : exec iMsb s = cmd .msb s) (hlsb : exec iLsb s = cmd .lsb s)
    (hmem : (i, ord) ∈ [(iMsb, BitOrder.msb), (iLsb, .lsb)]) : exec i s = cmd ord s := by
  simp only [List.mem_cons, List.not_mem_nil, or_false, Prod.mk.injEq] at hmem
  obtain ⟨rfl, rfl⟩ | ⟨rfl, rfl⟩ := hmem
  · exact hmsb
  · exact hlsb

/-! ### Single bits (R77) -/

/-- The bit place, as the statements write it. -/
theorem bitPlace_eq_ite (ord : BitOrder) (i : Nat) : bitPlace ord i = if ord = .msb then 7 - i % 8 else i % 8 := by
  cases ord <;> rfl

/-- Writing a bit in range completes, and gives that one bit its value (R140-R142). -/
theorem writeBitCmd_completes (ord : BitOrder) (v : Bool) {s : State} (h : s.bitByte < 256) :
    writeBitCmd ord v s = .next { s.bitWrite s.a0 s.a2 ord v with cerr := .ok } :=
  whenInRange_true _ _ _ ((inRange_iff _).mpr h)

/-- Settles O17: the six commands are one bit write, at the place of R77. -/
theorem bitWritesSetOneBit : Obligations.BitWritesSetOneBit := by
  intro s i ord v hmem h
  have hexec : exec i s = writeBitCmd ord v s := by
    simp only [List.mem_cons, List.not_mem_nil, or_false, Prod.mk.injEq] at hmem
    obtain ⟨rfl, rfl, rfl⟩ | ⟨rfl, rfl, rfl⟩ | ⟨rfl, rfl, rfl⟩ | ⟨rfl, rfl, rfl⟩ | ⟨rfl, rfl, rfl⟩ | ⟨rfl, rfl, rfl⟩ :=
      hmem <;> rfl
  refine ⟨_, hexec.trans (writeBitCmd_completes ord v h), rfl, fun a k hk => ?_⟩
  rw [← bitPlace_eq_ite]
  exact s.getLsbD_bitWrite _ _ ord v a k hk

/-- The state that GETBIT completes in (R143). -/
def State.gotBit (s : State) (ord : BitOrder) : State :=
  { s with result := if s.bit s.a0 s.a2 ord then 1 else 0, cerr := .ok }

/-- A bit, zero-extended to a register. -/
theorem setWidth_ofBool (b : Bool) : (BitVec.ofBool b).setWidth 32 = if b then 1 else 0 := by
  cases b <;> rfl

theorem readBitCmd_completes (ord : BitOrder) {s : State} (h : s.bitByte < 256) :
    readBitCmd ord s = .next (s.gotBit ord) := by
  rw [readBitCmd, whenInRange_true _ _ _ ((inRange_iff _).mpr h), setWidth_ofBool, ← State.bit_eq]
  rfl

/-- Settles O18: both forms read one bit, at the place of R77. -/
theorem getbitReadsOneBit : Obligations.GetbitReadsOneBit := by
  intro s i ord hmem h
  have hexec : exec i s = readBitCmd ord s := exec_of_mem_rows (cmd := readBitCmd) rfl rfl hmem
  exact hexec.trans (readBitCmd_completes ord h)

/-! ### Nibbles (R78) -/

/-- The table of R78, as the statements write it. -/
theorem nibbleHigh_iff (ord : BitOrder) (k : Nat) :
    nibbleHigh ord k = true ↔ (ord = .msb ∧ k % 2 = 0) ∨ (ord = .lsb ∧ k % 2 = 1) := by
  cases ord <;> simp [nibbleHigh]

theorem toNat_getNibble (x : Byte) (high : Bool) :
    (getNibble x high).toNat = if high then x.toNat / 16 else x.toNat % 16 := by
  cases high with
  | false => simp [getNibble]
  | true =>
    simp only [getNibble, if_true, BitVec.extractLsb'_toNat, Nat.shiftRight_eq_div_pow]
    omega

theorem toNat_append_nibbles (u v : BitVec 4) : (u ++ v).toNat = 16 * u.toNat + v.toNat := by
  rw [BitVec.toNat_append, ← Nat.shiftLeft_add_eq_or_of_lt v.isLt, Nat.shiftLeft_eq, Nat.mul_comm]

theorem toNat_putNibble (x : Byte) (high : Bool) (v : BitVec 4) : (putNibble x high v).toNat =
    if high then 16 * v.toNat + x.toNat % 16 else 16 * (x.toNat / 16) + v.toNat := by
  cases high with
  | false =>
    have hhigh : (x.extractLsb' 4 4).toNat = x.toNat / 16 := toNat_getNibble x true
    exact (toNat_append_nibbles _ v).trans (by rw [hhigh]; rfl)
  | true =>
    have hlow : (x.extractLsb' 0 4).toNat = x.toNat % 16 := toNat_getNibble x false
    exact (toNat_append_nibbles v _).trans (by rw [hlow]; rfl)

theorem State.toNat_nibbleValue (s : State) : s.nibbleValue.toNat = s.arg3.toNat % 16 := by
  simp [State.nibbleValue]

/-- Writing a nibble in range completes, with one byte written (R144). -/
theorem writeNibbleCmd_completes (ord : BitOrder) {s : State} (h : s.nibbleByte < 256) :
    writeNibbleCmd ord s = .next { s.setByte s.nibbleByte
      (putNibble (s.byte s.nibbleByte) (nibbleHigh ord s.a2) s.nibbleValue) with cerr := .ok } :=
  whenInRange_true _ _ _ ((inRange_iff _).mpr h)

/-- Settles O19: both forms write one byte, with one of its nibbles replaced. -/
theorem setnibWritesOneNibble : Obligations.SetnibWritesOneNibble := by
  intro s i ord hmem h
  have hexec : exec i s = writeNibbleCmd ord s := exec_of_mem_rows (cmd := writeNibbleCmd) rfl rfl hmem
  refine ⟨_, hexec.trans (writeNibbleCmd_completes ord h), rfl, fun a ha => (s.byte_setByte _ a _).trans (if_neg ha), ?_⟩
  simp only [← nibbleHigh_iff, ← s.toNat_nibbleValue, ← toNat_putNibble]
  exact congrArg BitVec.toNat ((s.byte_setByte _ _ _).trans (if_pos rfl))

/-- The state that GETNIB completes in (R145). -/
def State.gotNibble (s : State) (ord : BitOrder) : State :=
  { s with result := (getNibble (s.byte s.nibbleByte) (nibbleHigh ord s.a2)).setWidth 32, cerr := .ok }

theorem readNibbleCmd_completes (ord : BitOrder) {s : State} (h : s.nibbleByte < 256) :
    readNibbleCmd ord s = .next (s.gotNibble ord) :=
  whenInRange_true _ _ _ ((inRange_iff _).mpr h)

/-- Settles O20: both forms read one nibble of one byte. -/
theorem getnibReadsOneNibble : Obligations.GetnibReadsOneNibble := by
  intro s i ord hmem h
  have hexec : exec i s = readNibbleCmd ord s := exec_of_mem_rows (cmd := readNibbleCmd) rfl rfl hmem
  refine ⟨_, hexec.trans (readNibbleCmd_completes ord h), ?_⟩
  rw [BitVec.toNat_setWidth_of_le (by decide), toNat_getNibble]
  simp only [nibbleHigh_iff]

/-! ### A nibble is four bits of the same ordering (R146) -/

theorem getLsbD_getNibble (x : Byte) (high : Bool) {p : Nat} (hp : p < 4) :
    (getNibble x high).getLsbD p = x.getLsbD (p + if high then 4 else 0) := by
  cases high <;> simp [getNibble, hp, Nat.add_comm]

/-- Stream bit `4k + j` lies in the byte of nibble `k`, in the half of the table of R78, counted from that half's top under `msb` and
from its bottom under `lsb`. -/
theorem bitPlace_of_nibble (ord : BitOrder) (k : Nat) {j : Nat} (hj : j < 4) :
    bitPlace ord (4 * k + j) = (if ord = .msb then 3 - j else j) + if nibbleHigh ord k then 4 else 0 := by
  cases ord <;> simp only [bitPlace, nibbleHigh, decide_eq_true_eq, reduceCtorEq, if_true, if_false] <;> split <;> omega

/-- Stream bit `4k + j` is a bit of nibble `k`. -/
theorem State.bit_of_nibble (s : State) (base k : Nat) (ord : BitOrder) {j : Nat} (hj : j < 4) :
    s.bit base (4 * k + j) ord =
      (getNibble (s.byte (base + k / 2)) (nibbleHigh ord k)).getLsbD (if ord = .msb then 3 - j else j) := by
  rw [getLsbD_getNibble _ _ (by split <;> omega), ← bitPlace_of_nibble ord k hj, State.bit_eq, bitRead,
    show (4 * k + j) / 8 = k / 2 by omega]

/-- A nibble in a register is the weighted sum of its bits. -/
theorem setWidth_eq_weighted_bits : ∀ v : BitVec 4, v.setWidth 32 =
    8 * (if v.getLsbD 3 then 1 else 0) + 4 * (if v.getLsbD 2 then 1 else 0) + 2 * (if v.getLsbD 1 then 1 else 0) +
      (if v.getLsbD 0 then 1 else 0 : Word) := by
  decide

/-- The state before GETBIT of bit `j` of nibble `ARG2`: only the index is another. -/
def State.atNibbleBit (s : State) (j : Nat) : State :=
  s.withArgs s.arg0 s.arg1 (BitVec.ofNat 32 (4 * s.arg2.toNat + j)) s.arg3

section
variable {s : State} (h : s.arg0.toNat + s.arg2.toNat / 2 < 256) {j : Nat} (hj : j < 4)
include h hj

/-- Where the nibble is in range its bit indices are small, so `ARG2` holds them without a wrap. -/
theorem State.atNibbleBit_a2 : (s.atNibbleBit j).a2 = 4 * s.a2 + j := by
  rw [State.a2, State.atNibbleBit, State.withArgs_arg2, BitVec.toNat_ofNat]
  exact Nat.mod_eq_of_lt (by omega)

/-- The bits of a nibble in range are in range. -/
theorem State.atNibbleBit_bitByte_lt : (s.atNibbleBit j).bitByte < 256 := by
  have ha0 : (s.atNibbleBit j).a0 = s.a0 := rfl
  rw [State.bitByte, State.atNibbleBit_a2 h hj, ha0, show (4 * s.a2 + j) / 8 = s.a2 / 2 by omega]
  exact h

/-- GETBIT of a bit of nibble `ARG2` reads that bit of the nibble. -/
theorem State.gotBit_atNibbleBit_result (ord : BitOrder) : ((s.atNibbleBit j).gotBit ord).result =
    if (getNibble (s.byte s.nibbleByte) (nibbleHigh ord s.a2)).getLsbD (if ord = .msb then 3 - j else j) then 1 else 0 := by
  rw [← s.bit_of_nibble s.a0 s.a2 ord hj, ← State.atNibbleBit_a2 h hj]
  rfl

end

/-- Settles O21: the five reads complete, and the nibble is the weighted sum of its bits. -/
theorem nibblesAgreeWithBits : Obligations.NibblesAgreeWithBits := by
  intro s h
  refine ⟨fun j => (s.atNibbleBit j).gotBit .msb, fun j => (s.atNibbleBit j).gotBit .lsb, s.gotNibble .msb, s.gotNibble .lsb,
    fun j hj => ?_, readNibbleCmd_completes .msb h, readNibbleCmd_completes .lsb h, ?_, ?_⟩
  · have hbit := State.atNibbleBit_bitByte_lt h hj
    exact ⟨readBitCmd_completes .msb hbit, readBitCmd_completes .lsb hbit⟩
  · simp only [State.gotBit_atNibbleBit_result h, Nat.reduceLT]
    exact setWidth_eq_weighted_bits _
  · simp only [State.gotBit_atNibbleBit_result h, Nat.reduceLT]
    rw [State.gotNibble, setWidth_eq_weighted_bits]
    simp only [reduceCtorEq, if_false]
    ring

end Sys2Proof.Machine

/-! ## The Manchester commands: the bits decoded and encoded, and the round trip (41_manchester.md) -/

namespace Sys2Proof.Machine

/-! ### A stream written bit by bit -/

/-- Writing a stream leaves every value bit that is the place of none of its bits. -/
theorem State.getLsbD_writeBits_of_outside (s : State) {base start : Nat} {ord : BitOrder} {l : List (Option Bool)} {a k : Nat}
    (hk : k < 8) (h : ∀ p, start ≤ p → p < start + l.length → ¬ (a = base + p / 8 ∧ k = bitPlace ord p)) :
    ((s.writeBits base start ord l).byte a).getLsbD k = (s.byte a).getLsbD k := by
  rw [State.getLsbD_writeBits _ _ _ _ _ _ _ hk, if_neg]
  rintro ⟨hbase, hlo, hhi⟩
  have hplace := bitPlace_lt ord k
  exact h _ hlo hhi ⟨by omega, ((bitPlace_eq_iff ord _ k hk).mpr (by omega)).symm⟩

/-- Bit `i` of the stream `f 0, f 1, ...` just written: `f i`, or what stood there where `f i` is no bit. -/
theorem State.bit_writeBits_map_range (s : State) (base start : Nat) (ord : BitOrder) (f : Nat → Option Bool) {n i : Nat}
    (hi : i < n) : (s.writeBits base start ord ((List.range n).map f)).bit base (start + i) ord =
      (f i).getD (s.bit base (start + i) ord) := by
  rw [State.bit_writeBits, if_pos (by simpa using hi), Nat.add_sub_cancel_left, getD_map_range _ _ _ _ hi]

/-! ### MDEC (R160) -/

/-- The decoded bits of WRAM, over the stream bits the statements name. -/
theorem State.manDec_byte_eq (s : State) (base len off : Nat) : manDec s.byte base len off =
    (List.range len).map fun j => manPair (s.bit base (2 * off + 2 * j) .msb) (s.bit base (2 * off + 2 * j + 1) .msb) := by
  simp only [manDec_eq, State.bit_eq]

/-- The state that MDEC completes in, with its `ACC` flag (R160). -/
def State.manDecoded (s : State) (acc : Bool) : State :=
  let bits := manDec s.byte s.a0 s.a2 s.a3
  { (s.writeBits s.a1 0 .msb bits).countErrors acc (manErrors bits) with cerr := .ok }

/-- MDEC completes where its pairs and its output are in range, and always with no pair to decode (R73). -/
theorem manDecodeCmd_completes (acc : Bool) {s : State}
    (h : 0 < s.a2 → s.a0 + (2 * s.a3 + 2 * s.a2 - 1) / 8 < 256 ∧ s.a1 + (s.a2 - 1) / 8 < 256) :
    manDecodeCmd acc s = .next (s.manDecoded acc) := by
  refine whenInRange_true _ _ _ (Bool.and_eq_true_iff.mpr ⟨?_, ?_⟩)
  · exact (bitsInRange_iff _ _ _).mpr fun hlen => (h (by omega)).1
  · refine (bitsInRange_iff _ _ _).mpr fun hlen => ?_
    rw [Nat.zero_add]
    exact (h hlen).2

section
variable (s : State) (acc : Bool)

/-- MDEC writes WRAM, `ERRCNT` and `CERR`, and nothing else. -/
theorem State.manDecoded_frame : s.manDecoded acc =
    { s with wram := (s.manDecoded acc).wram, errcnt := (s.manDecoded acc).errcnt, cerr := .ok } := by
  rw [State.manDecoded, State.writeBits_eq]
  rfl

/-- Each output bit is the bit of its pair, or stays where the pair is invalid. -/
theorem State.manDecoded_bit {j : Nat} (hj : j < s.a2) : (s.manDecoded acc).bit s.a1 j .msb =
    (manPair (s.bit s.a0 (2 * s.a3 + 2 * j) .msb) (s.bit s.a0 (2 * s.a3 + 2 * j + 1) .msb)).getD (s.bit s.a1 j .msb) := by
  have hbit := s.bit_writeBits_map_range s.a1 0 .msb
    (fun j => manPair (s.bit s.a0 (2 * s.a3 + 2 * j) .msb) (s.bit s.a0 (2 * s.a3 + 2 * j + 1) .msb)) hj
  rw [← State.manDec_byte_eq, Nat.zero_add] at hbit
  exact hbit

theorem State.manDecoded_getLsbD_of_outside {a k : Nat} (hk : k < 8)
    (h : ∀ j, j < s.a2 → ¬ (a = s.a1 + j / 8 ∧ k = 7 - j % 8)) :
    ((s.manDecoded acc).byte a).getLsbD k = (s.byte a).getLsbD k := by
  refine s.getLsbD_writeBits_of_outside hk fun p _ hp => h p ?_
  rwa [length_manDec, Nat.zero_add] at hp

/-- The count is the number of pairs of two equal bits, and replaces `ERRCNT` or is added to it (R34, R165). -/
theorem State.manDecoded_errcnt : (s.manDecoded acc).errcnt = (if acc then s.errcnt else 0) +
    BitVec.ofNat 16 ((List.range s.a2).countP fun j =>
      s.bit s.a0 (2 * s.a3 + 2 * j) .msb == s.bit s.a0 (2 * s.a3 + 2 * j + 1) .msb) := by
  have hkeep : (s.writeBits s.a1 0 .msb (manDec s.byte s.a0 s.a2 s.a3)).errcnt = s.errcnt := by rw [State.writeBits_eq]
  rw [← manErrors_map, ← State.manDec_byte_eq]
  cases acc with
  | false => exact (BitVec.zero_add _).symm
  | true => exact congrArg (· + _) hkeep

end

/-- Settles O22: MDEC writes the decoded stream, whose bits and count are those of the pairs read before the first write. -/
theorem mdecDecodesEveryPair : Obligations.MdecDecodesEveryPair := by
  intro s i acc hmem h
  have hexec : exec i s = manDecodeCmd acc s := by
    simp only [List.mem_cons, List.not_mem_nil, or_false, Prod.mk.injEq] at hmem
    obtain ⟨rfl, rfl⟩ | ⟨rfl, rfl⟩ := hmem <;> rfl
  refine ⟨_, hexec.trans (manDecodeCmd_completes acc h), s.manDecoded_frame acc, fun j hj => ?_,
    fun a k hk hout => s.manDecoded_getLsbD_of_outside acc hk hout, s.manDecoded_errcnt acc⟩
  rw [s.manDecoded_bit acc hj]
  cases s.bit s.a0 (2 * s.a3 + 2 * j) .msb <;> cases s.bit s.a0 (2 * s.a3 + 2 * j + 1) .msb <;> rfl

/-! ### MENC (R161) -/

/-- Physical bit `p` of the Manchester code of the stream at `base`: the bit itself at the first place of a pair, its inverse at the
second (R162). -/
def State.manPhysical (s : State) (base p : Nat) : Bool :=
  if p % 2 = 0 then s.bit base (p / 2) .msb else !s.bit base (p / 2) .msb

theorem State.manPhysical_first (s : State) (base j : Nat) : s.manPhysical base (2 * j) = s.bit base j .msb := by
  simp [State.manPhysical]

theorem State.manPhysical_second (s : State) (base j : Nat) : s.manPhysical base (2 * j + 1) = !s.bit base j .msb := by
  rw [State.manPhysical, if_neg (by omega), show (2 * j + 1) / 2 = j by omega]

/-- The bits that MENC writes. -/
theorem State.manEncode_readBits (s : State) (base n : Nat) : (manEncode (readBits s.byte base 0 n .msb)).map some =
    (List.range (2 * n)).map fun p => some (s.manPhysical base p) := by
  rw [readBits_eq_stream, manEncode_stream, stream, List.map_map]
  simp only [State.manPhysical, State.bit_eq, Nat.zero_add, Function.comp_def]

/-- The state that MENC completes in (R161). -/
def State.manEncoded (s : State) : State :=
  { s.writeBits s.a1 s.a3 .msb ((manEncode (readBits s.byte s.a0 0 s.a2 .msb)).map some) with cerr := .ok }

/-- MENC completes where its input and its pairs are in range, and always with no bit to encode (R73). -/
theorem execMenc_completes {s : State}
    (h : 0 < s.a2 → s.a0 + (s.a2 - 1) / 8 < 256 ∧ s.a1 + (s.a3 + 2 * s.a2 - 1) / 8 < 256) :
    execMenc s = .next s.manEncoded := by
  refine whenInRange_true _ _ _ (Bool.and_eq_true_iff.mpr ⟨?_, ?_⟩)
  · refine (bitsInRange_iff _ _ _).mpr fun hlen => ?_
    rw [Nat.zero_add]
    exact (h hlen).1
  · exact (bitsInRange_iff _ _ _).mpr fun hlen => (h (by omega)).2

section
variable (s : State)

/-- MENC writes WRAM and `CERR`, and nothing else. -/
theorem State.manEncoded_frame : s.manEncoded = { s with wram := s.manEncoded.wram, cerr := .ok } :=
  congrArg (fun w : State => { w with cerr := .ok }) (s.writeBits_eq s.a1 s.a3 .msb _)

theorem State.manEncoded_bit {p : Nat} (hp : p < 2 * s.a2) :
    s.manEncoded.bit s.a1 (s.a3 + p) .msb = s.manPhysical s.a0 p := by
  have hbit := s.bit_writeBits_map_range s.a1 s.a3 .msb (fun p => some (s.manPhysical s.a0 p)) hp
  rw [← State.manEncode_readBits] at hbit
  exact hbit

/-- The pair of every bit: the bit, then its inverse. -/
theorem State.manEncoded_pair {j : Nat} (hj : j < s.a2) :
    s.manEncoded.bit s.a1 (s.a3 + 2 * j) .msb = s.bit s.a0 j .msb ∧
    s.manEncoded.bit s.a1 (s.a3 + 2 * j + 1) .msb = !s.bit s.a0 j .msb := by
  constructor
  · rw [s.manEncoded_bit (by omega), s.manPhysical_first]
  · rw [Nat.add_assoc, s.manEncoded_bit (by omega), s.manPhysical_second]

theorem State.manEncoded_getLsbD_of_outside {a k : Nat} (hk : k < 8)
    (h : ∀ p, s.a3 ≤ p → p < s.a3 + 2 * s.a2 → ¬ (a = s.a1 + p / 8 ∧ k = 7 - p % 8)) :
    (s.manEncoded.byte a).getLsbD k = (s.byte a).getLsbD k := by
  refine s.getLsbD_writeBits_of_outside hk fun p hlo hp => h p hlo ?_
  rwa [List.length_map, length_manEncode_readBits] at hp

end

/-- Settles O23: MENC writes the encoded stream, two bits for each bit read before the first write. -/
theorem mencEncodesEveryBit : Obligations.MencEncodesEveryBit := by
  intro s h
  exact ⟨_, execMenc_completes h, s.manEncoded_frame, fun j hj => s.manEncoded_pair hj,
    fun a k hk hout => s.manEncoded_getLsbD_of_outside hk hout⟩

/-! ### The round trip (R164) -/

/-- A bit and its inverse are a valid pair, and the pair of that bit (R162). -/
theorem manPair_not (v : Bool) : manPair v (!v) = some v := by
  cases v <;> rfl

section
variable {s : State} {f : Nat → Bool}
  (hpair : ∀ j, j < s.a2 → s.bit s.a0 (2 * s.a3 + 2 * j) .msb = f j ∧ s.bit s.a0 (2 * s.a3 + 2 * j + 1) .msb = !f j)
include hpair

/-- MDEC of the Manchester code of a stream gives the stream. -/
theorem State.manDecoded_bit_of_pairs (acc : Bool) {j : Nat} (hj : j < s.a2) : (s.manDecoded acc).bit s.a1 j .msb = f j := by
  obtain ⟨hfirst, hsecond⟩ := hpair j hj
  rw [s.manDecoded_bit acc hj, hfirst, hsecond, manPair_not, Option.getD_some]

/-- MDEC of the Manchester code of a stream counts no error. -/
theorem State.manDecoded_errcnt_of_pairs : (s.manDecoded false).errcnt = 0 := by
  rw [s.manDecoded_errcnt, List.countP_eq_zero.mpr]
  · rfl
  · intro j hj
    obtain ⟨hfirst, hsecond⟩ := hpair j (List.mem_range.mp hj)
    simp [hfirst, hsecond]

end

/-- The state before the MDEC of the round trip: MENC has completed, and the host has written the operands that read its output back
to `dst`. -/
def State.readingBack (s : State) (dst off : Word) : State := s.manEncoded.withArgs s.arg1 dst s.arg2 off

/-- The pairs that MDEC then reads are the ones that MENC wrote. -/
theorem State.readingBack_pair (s : State) (dst off : Word) (hoff : s.a3 = 2 * off.toNat) (j : Nat)
    (hj : j < (s.readingBack dst off).a2) :
    (s.readingBack dst off).bit (s.readingBack dst off).a0 (2 * (s.readingBack dst off).a3 + 2 * j) .msb = s.bit s.a0 j .msb ∧
    (s.readingBack dst off).bit (s.readingBack dst off).a0 (2 * (s.readingBack dst off).a3 + 2 * j + 1) .msb =
      !s.bit s.a0 j .msb := by
  have ha3 : 2 * (s.readingBack dst off).a3 = s.a3 := hoff.symm
  rw [ha3]
  exact s.manEncoded_pair hj

/-- Settles O24: every pair that MDEC reads is one that MENC wrote, so it is valid and the pair of its bit. -/
theorem manchesterRoundTrip : Obligations.ManchesterRoundTrip := by
  intro s dst off hoff h
  have hpair := s.readingBack_pair dst off hoff
  have hmdec : manDecodeCmd false (s.readingBack dst off) = .next ((s.readingBack dst off).manDecoded false) := by
    rw [hoff] at h
    exact manDecodeCmd_completes false fun hlen => (h hlen).2
  exact ⟨_, _, execMenc_completes fun hlen => ⟨(h hlen).1, (h hlen).2.1⟩, hmdec,
    fun j hj => State.manDecoded_bit_of_pairs hpair false hj, State.manDecoded_errcnt_of_pairs hpair, rfl⟩

end Sys2Proof.Machine

/-! ## The framing commands: the groups decoded and encoded, the round trip, and the cleared markers (42_frame.md) -/

namespace Sys2Proof.Machine

/-! ### The bits of a group (R182) -/

/-- Where the framed stream carries bit `q` of payload byte `b`: the first group of a byte is its low nibble, and each of the two
groups opens with its marker (R180, R182). -/
def framedPlace (b q : Nat) : Nat := 10 * b + q + if q < 4 then 1 else 2

theorem framedPlace_low (b : Nat) {q : Nat} (hq : q < 4) : framedPlace b q = 10 * b + 1 + q := by
  rw [framedPlace, if_pos hq]; omega

theorem framedPlace_high (b q : Nat) : framedPlace b (4 + q) = 10 * b + 6 + q := by
  rw [framedPlace, if_neg (by omega)]; omega

/-- A payload bit lies inside the `2n` groups of a stream of `n` bytes, before the trailing marker. -/
theorem framedPlace_lt {b q n : Nat} (hb : b < n) (hq : q < 8) : framedPlace b q < 10 * n := by
  unfold framedPlace; split <;> omega

/-- A payload bit is no marker. -/
theorem framedPlace_mod_ne_zero (b : Nat) {q : Nat} (hq : q < 8) : framedPlace b q % 5 ≠ 0 := by
  unfold framedPlace; split <;> omega

/-- Under the `lsb` order, stream bit `8b + q` is value bit `q` of byte `b` (R77). -/
theorem State.bit_lsb_of_byte (s : State) (base b : Nat) {q : Nat} (hq : q < 8) :
    s.bit base (8 * b + q) .lsb = (s.byte (base + b)).getLsbD q := by
  rw [State.bit_eq, bitRead, bitPlace, show (8 * b + q) / 8 = b by omega, show (8 * b + q) % 8 = q by omega]

/-! ### FDEC (R180) -/

/-- The framed bits that FDEC reads, over the stream bits the statements name. -/
theorem State.readBits_framed (s : State) :
    readBits s.byte s.a0 0 (10 * s.a2) .msb = stream (fun p => s.bit s.a0 p .msb) (10 * s.a2) := by
  simp only [readBits_eq_stream, State.bit_eq, Nat.zero_add]

/-- The state that FDEC completes in, with its `ACC` flag (R180). -/
def State.frmDecoded (s : State) (acc : Bool) : State :=
  let bits := readBits s.byte s.a0 0 (10 * s.a2) .msb
  { (s.writeBytes s.a1 (frmBytes bits)).countErrors acc (frmErrors bits) with cerr := .ok }

/-- FDEC completes where its groups and its output are in range, and always with no byte to decode (R73). -/
theorem frmDecodeCmd_completes (acc : Bool) {s : State}
    (h : 0 < s.a2 → s.a0 + (10 * s.a2 - 1) / 8 < 256 ∧ s.a1 + s.a2 - 1 < 256) :
    frmDecodeCmd acc s = .next (s.frmDecoded acc) := by
  refine whenInRange_true _ _ _ (Bool.and_eq_true_iff.mpr ⟨?_, ?_⟩)
  · refine (bitsInRange_iff _ _ _).mpr fun hlen => ?_
    rw [Nat.zero_add]
    exact (h (by omega)).1
  · exact (bytesInRange_iff _ _).mpr fun hlen => (h hlen).2

section
variable (s : State) (acc : Bool)

/-- FDEC writes WRAM, `ERRCNT` and `CERR`, and nothing else. -/
theorem State.frmDecoded_frame : s.frmDecoded acc =
    { s with wram := (s.frmDecoded acc).wram, errcnt := (s.frmDecoded acc).errcnt, cerr := .ok } := by
  rw [State.frmDecoded, State.writeBytes_eq]
  rfl

/-- Each bit of an output byte is the payload bit of its place, whatever the markers. -/
theorem State.frmDecoded_getLsbD {b q : Nat} (hb : b < s.a2) (hq : q < 8) :
    ((s.frmDecoded acc).byte (s.a1 + b)).getLsbD q = s.bit s.a0 (framedPlace b q) .msb := by
  have hbyte : (s.frmDecoded acc).byte (s.a1 + b) =
      (frmBytes (stream (fun p => s.bit s.a0 p .msb) (10 * s.a2))).getD b 0 := by
    rw [← s.readBits_framed]
    refine (s.byte_writeBytes _ _ _).trans ((if_pos ⟨by omega, ?_⟩).trans (by rw [Nat.add_sub_cancel_left]))
    rw [length_frmBytes_readBits]
    omega
  rw [hbyte, getLsbD_frmBytes _ _ _ _ hb hq, framedPlace]

theorem State.frmDecoded_byte_of_outside {a : Nat} (h : ∀ b, b < s.a2 → a ≠ s.a1 + b) :
    (s.frmDecoded acc).byte a = s.byte a := by
  refine s.byte_writeBytes_of_outside fun b hb => h b ?_
  rwa [length_frmBytes_readBits] at hb

/-- The count is the number of group markers that are not 1, and replaces `ERRCNT` or is added to it (R34). -/
theorem State.frmDecoded_errcnt : (s.frmDecoded acc).errcnt = (if acc then s.errcnt else 0) +
    BitVec.ofNat 16 ((List.range (2 * s.a2)).countP fun g => !s.bit s.a0 (5 * g) .msb) := by
  have hkeep (l : List Byte) : (s.writeBytes s.a1 l).errcnt = s.errcnt := by rw [State.writeBytes_eq]
  rw [← frmErrors_stream (fun p => s.bit s.a0 p .msb), show 5 * (2 * s.a2) = 10 * s.a2 by ring, ← s.readBits_framed]
  cases acc with
  | false => exact (BitVec.zero_add _).symm
  | true => exact congrArg (· + _) (hkeep _)

end

/-- Settles O25: FDEC writes the payload bytes, whose bits and count are those of the groups read before the first write. -/
theorem fdecDecodesEveryGroup : Obligations.FdecDecodesEveryGroup := by
  intro s i acc hmem h
  have hexec : exec i s = frmDecodeCmd acc s := by
    simp only [List.mem_cons, List.not_mem_nil, or_false, Prod.mk.injEq] at hmem
    obtain ⟨rfl, rfl⟩ | ⟨rfl, rfl⟩ := hmem <;> rfl
  refine ⟨_, hexec.trans (frmDecodeCmd_completes acc h), s.frmDecoded_frame acc, fun b q hb hq => ⟨?_, ?_⟩,
    fun a hout => s.frmDecoded_byte_of_outside acc hout, s.frmDecoded_errcnt acc⟩
  · rw [s.frmDecoded_getLsbD acc hb (by omega), framedPlace_low b hq]
  · rw [s.frmDecoded_getLsbD acc hb (by omega), framedPlace_high]

/-! ### FENC (R181) -/

/-- Bit `p` of the framed stream of the bytes at `base`: a marker 1 at every fifth place, the payload between them (R182). -/
def State.framed (s : State) (base p : Nat) : Bool :=
  if p % 5 = 0 then true else s.bit base (4 * (p / 5) + p % 5 - 1) .lsb

theorem State.framed_marker (s : State) (base g : Nat) : s.framed base (5 * g) = true := if_pos (by omega)

theorem State.framed_payload (s : State) (base g : Nat) {q : Nat} (hq : q < 4) :
    s.framed base (5 * g + 1 + q) = s.bit base (4 * g + q) .lsb := by
  rw [State.framed, if_neg (by omega), show 4 * ((5 * g + 1 + q) / 5) + (5 * g + 1 + q) % 5 - 1 = 4 * g + q by omega]

/-- The framed stream carries bit `q` of byte `b` at its place. -/
theorem State.framed_framedPlace (s : State) (base b : Nat) {q : Nat} (hq : q < 8) :
    s.framed base (framedPlace b q) = (s.byte (base + b)).getLsbD q := by
  have hplace : framedPlace b q = 5 * (2 * b + q / 4) + 1 + q % 4 := by unfold framedPlace; split <;> omega
  rw [hplace, s.framed_payload base _ (by omega), show 4 * (2 * b + q / 4) + q % 4 = 8 * b + q by omega, s.bit_lsb_of_byte _ _ hq]

/-- The bits that FENC writes. -/
theorem State.frmEncode_readBits (s : State) (base n : Nat) : (frmEncode (readBits s.byte base 0 (8 * n) .lsb)).map some =
    (List.range (10 * n + 1)).map fun p => some (s.framed base p) := by
  rw [readBits_eq_stream, show 8 * n = 4 * (2 * n) by ring, frmEncode_stream, show 5 * (2 * n) = 10 * n by ring, stream,
    List.map_map]
  simp only [State.framed, State.bit_eq, Nat.zero_add, Function.comp_def]

/-- The state that FENC completes in (R181). -/
def State.frmEncoded (s : State) : State :=
  { s.writeBits s.a1 0 .msb ((frmEncode (readBits s.byte s.a0 0 (8 * s.a2) .lsb)).map some) with cerr := .ok }

/-- FENC completes where its input and its framed stream are in range; with no byte to encode, the stream is the trailing marker
(R73). -/
theorem execFenc_completes {s : State} (hin : 0 < s.a2 → s.a0 + s.a2 - 1 < 256) (hout : s.a1 + 10 * s.a2 / 8 < 256) :
    execFenc s = .next s.frmEncoded := by
  refine whenInRange_true _ _ _ (Bool.and_eq_true_iff.mpr ⟨(bytesInRange_iff _ _).mpr hin, ?_⟩)
  refine (bitsInRange_iff _ _ _).mpr fun _ => ?_
  rwa [Nat.zero_add, Nat.add_sub_cancel]

/-- A FENC that ended without an error has completed, with its framed stream in range. -/
theorem execFenc_of_ok {s t : State} (h : execFenc s = .next t) (hok : t.cerr = .ok) :
    t = s.frmEncoded ∧ s.a1 + 10 * s.a2 / 8 < 256 := by
  obtain ⟨hrange, rfl⟩ | ⟨-, rfl⟩ := whenInRange_next _ _ _ _ h
  · refine ⟨rfl, ?_⟩
    have hout := (bitsInRange_iff _ _ _).mp (Bool.and_eq_true_iff.mp hrange).2 (Nat.succ_pos _)
    rwa [Nat.zero_add, Nat.add_sub_cancel] at hout
  · cases hok

section
variable (s : State)

/-- FENC writes WRAM and `CERR`, and nothing else. -/
theorem State.frmEncoded_frame : s.frmEncoded = { s with wram := s.frmEncoded.wram, cerr := .ok } :=
  congrArg (fun w : State => { w with cerr := .ok }) (s.writeBits_eq s.a1 0 .msb _)

theorem State.frmEncoded_bit {p : Nat} (hp : p ≤ 10 * s.a2) : s.frmEncoded.bit s.a1 p .msb = s.framed s.a0 p := by
  have hbit := s.bit_writeBits_map_range s.a1 0 .msb (fun p => some (s.framed s.a0 p)) (Nat.lt_succ_of_le hp)
  rw [← State.frmEncode_readBits, Nat.zero_add] at hbit
  exact hbit

theorem State.frmEncoded_getLsbD_of_outside {a k : Nat} (hk : k < 8)
    (h : ∀ p, p ≤ 10 * s.a2 → ¬ (a = s.a1 + p / 8 ∧ k = 7 - p % 8)) :
    (s.frmEncoded.byte a).getLsbD k = (s.byte a).getLsbD k := by
  refine s.getLsbD_writeBits_of_outside hk fun p _ hp => h p ?_
  rw [List.length_map, length_frmEncode_readBits] at hp
  omega

end

/-- Settles O26: FENC writes the framed stream of the bits read before the first write. -/
theorem fencEncodesEveryNibble : Obligations.FencEncodesEveryNibble := by
  intro s hin hout
  refine ⟨_, execFenc_completes hin hout, s.frmEncoded_frame, fun g (hg : g ≤ 2 * s.a2) => ?_,
    fun g q (hg : g < 2 * s.a2) hq => ?_, fun a k hk h => s.frmEncoded_getLsbD_of_outside hk h⟩
  · rw [s.frmEncoded_bit (by omega), s.framed_marker]
  · rw [s.frmEncoded_bit (by omega), s.framed_payload _ _ hq]

/-! ### A framed stream with cleared markers (R184), and the round trip (R183) -/

/-- Counting the numbers below `n` that occur in a list without duplicates, all of them below `n`, gives its length. -/
theorem countP_range_contains {l : List Nat} {n : Nat} (hnodup : l.Nodup) (hlt : ∀ g ∈ l, g < n) :
    (List.range n).countP l.contains = l.length := by
  rw [List.countP_eq_length_filter]
  refine List.Perm.length_eq ((List.perm_ext_iff_of_nodup (List.nodup_range.filter _) hnodup).mpr fun g => ?_)
  rw [List.mem_filter, List.mem_range, List.contains_iff_mem, and_iff_right_of_imp (hlt g)]

/-- FDEC of a stream that carries the bits of the bytes `f 0, f 1, ...` gives these bytes. -/
theorem State.frmDecoded_byte_of_payload {s : State} {f : Nat → Byte} (acc : Bool) {b : Nat} (hb : b < s.a2)
    (hpayload : ∀ q, q < 8 → s.bit s.a0 (framedPlace b q) .msb = (f b).getLsbD q) :
    (s.frmDecoded acc).byte (s.a1 + b) = f b :=
  BitVec.eq_of_getLsbD_eq fun q hq => (s.frmDecoded_getLsbD acc hb hq).trans (hpayload q hq)

/-- FDEC of a stream whose markers are 1 but for those of `groups` counts these. -/
theorem State.frmDecoded_errcnt_of_markers {s : State} {groups : List Nat} (hnodup : groups.Nodup)
    (hlt : ∀ g ∈ groups, g < 2 * s.a2) (hmarker : ∀ g, g < 2 * s.a2 → s.bit s.a0 (5 * g) .msb = !groups.contains g) :
    (s.frmDecoded false).errcnt = BitVec.ofNat 16 groups.length := by
  have hcount : ((List.range (2 * s.a2)).countP fun g => !s.bit s.a0 (5 * g) .msb) = groups.length := by
    rw [← countP_range_contains hnodup hlt]
    refine List.countP_congr fun g hg => ?_
    rw [hmarker g (List.mem_range.mp hg), Bool.not_not]
  rw [s.frmDecoded_errcnt, hcount]
  exact BitVec.zero_add _

/-- Settles O28: a cleared marker is a marker of FENC's stream, so every payload bit is as FENC wrote it. -/
theorem clearedMarkersAreCounted : Obligations.ClearedMarkersAreCounted := by
  intro s t u dst groups hfenc hok hnodup hlt hsrc hdst hlen hrange hbits
  obtain ⟨rfl, hout⟩ := execFenc_of_ok hfenc hok
  have ha0 : u.a0 = s.a1 := congrArg BitVec.toNat hsrc
  have ha1 : u.a1 = dst.toNat := congrArg BitVec.toNat hdst
  have ha2 : u.a2 = s.a2 := congrArg BitVec.toNat hlen
  have hread : ∀ p, p < 10 * s.a2 → u.bit s.a1 p .msb =
      (s.framed s.a0 p && !(decide (p % 5 = 0) && groups.contains (p / 5))) := fun p hp =>
    (hbits p hp).trans (by rw [s.frmEncoded_bit hp.le])
  have hmarker : ∀ g, g < 2 * u.a2 → u.bit u.a0 (5 * g) .msb = !groups.contains g := fun g hg => by
    rw [ha0, hread _ (by omega), s.framed_marker, Nat.mul_mod_right, Nat.mul_div_cancel_left g (by decide)]
    rfl
  have hpayload : ∀ b, b < s.a2 → ∀ q, q < 8 →
      u.bit u.a0 (framedPlace b q) .msb = (s.byte (s.a0 + b)).getLsbD q := fun b hb q hq => by
    rw [ha0, hread _ (framedPlace_lt hb hq), decide_eq_false (framedPlace_mod_ne_zero b hq), s.framed_framedPlace _ _ hq]
    exact Bool.and_true _
  refine ⟨u.frmDecoded false, frmDecodeCmd_completes false fun hpos => ?_,
    State.frmDecoded_errcnt_of_markers hnodup (by rwa [ha2]) hmarker, rfl, fun b hb => ?_⟩
  · rw [ha2] at hpos
    rw [ha0, ha1, ha2]
    exact ⟨by omega, hrange hpos⟩
  · rw [← ha1]
    exact State.frmDecoded_byte_of_payload (f := fun b => s.byte (s.a0 + b)) false (hb.trans_eq ha2.symm)
      (hpayload b hb)

/-- Settles O27: FDEC reads FENC's stream back with no marker cleared. -/
theorem framingRoundTrip : Obligations.FramingRoundTrip := by
  intro s dst hin hout
  have hfenc := execFenc_completes (fun hpos => (hin hpos).1) hout
  obtain ⟨v, hfdec, hcount, hcerr, hbytes⟩ := clearedMarkersAreCounted s _ (s.frmEncoded.withArgs s.arg1 dst s.arg2 s.arg3) dst []
    hfenc rfl List.nodup_nil nofun rfl rfl rfl (fun hpos => (hin hpos).2)
    (fun p _ => by rw [List.contains_nil, Bool.and_false]; exact (Bool.and_true _).symm)
  exact ⟨_, v, hfenc, hfdec, hbytes, hcount, hcerr⟩

end Sys2Proof.Machine

/-! ## The checksum commands: the stated values, CRC8, CRCCHK, the residue, and the errors of one bit (43_checksum.md) -/

namespace Sys2Proof.Machine

/-- Settles O29: fixed values. -/
theorem crcGivesTheStatedValues : Obligations.CrcGivesTheStatedValues := by
  unfold Obligations.CrcGivesTheStatedValues
  decide +kernel

/-! ### CRC8 (R204) -/

/-- The state that CRC8 completes in (R204). -/
def State.checksummed (s : State) : State :=
  { s with result := (crc8 (s.readBytes s.a0 s.a2)).setWidth 32, cerr := .ok }

/-- CRC8 completes where its bytes are in range, and always with no byte to read (R73). -/
theorem execCrc8_completes {s : State} (h : 0 < s.a2 → s.a0 + s.a2 - 1 < 256) : execCrc8 s = .next s.checksummed :=
  whenInRange_true _ _ _ ((bytesInRange_iff _ _).mpr h)

/-- With no byte to read, the checksum is that of the empty list (R204). -/
theorem State.checksummed_of_arg2_eq_zero {s : State} (h : s.arg2 = 0) : s.checksummed = { s with result := 0, cerr := .ok } := by
  have hlen : s.a2 = 0 := congrArg BitVec.toNat h
  rw [State.checksummed, hlen]
  rfl

/-- Settles O30: CRC8 completes, and a length of 0 has no byte to be out of range. -/
theorem crc8ChecksumsTheBytes : Obligations.Crc8ChecksumsTheBytes := by
  refine ⟨fun s _ hrange => execCrc8_completes fun _ => hrange, fun s h => ?_⟩
  have hlen : s.a2 = 0 := congrArg BitVec.toNat h
  rw [← State.checksummed_of_arg2_eq_zero h]
  exact execCrc8_completes fun hpos => absurd hlen hpos.ne'

/-! ### CRCCHK (R205) -/

/-- The state that CRCCHK completes in (R205). -/
def State.checksumCompared (s : State) : State :=
  { s with
    result := if crc8 (s.readBytes s.a0 (s.a2 - 1)) = s.byte (s.a0 + s.a2 - 1) then 1 else 0
    cerr := .ok }

/-- CRCCHK completes where it has a byte to compare and its bytes are in range (R73, R205). -/
theorem execCrcchk_completes {s : State} (hpos : 0 < s.a2) (hrange : s.a0 + s.a2 - 1 < 256) :
    execCrcchk s = .next s.checksumCompared :=
  (if_neg hpos.ne').trans (whenInRange_true _ _ _ ((bytesInRange_iff _ _).mpr fun _ => hrange))

/-- The length is checked before the range (R205, R263). -/
theorem execCrcchk_of_arg2_eq_zero {s : State} (h : s.arg2 = 0) : execCrcchk s = .next { s with cerr := .badLen } :=
  if_pos (congrArg BitVec.toNat h)

/-- Settles O31: the two cases of the length. -/
theorem crcchkComparesTheLastByte : Obligations.CrcchkComparesTheLastByte :=
  ⟨fun _ hpos hrange => ⟨_, execCrcchk_completes hpos hrange, rfl⟩, fun _ h => execCrcchk_of_arg2_eq_zero h⟩

/-! ### The residue (R206) -/

/-- A list followed by its checksum has checksum 0: the last byte empties the register. -/
theorem crc8_concat_self (d : List Byte) : crc8 (d ++ [crc8 d]) = 0 := by
  rw [crc8_concat, crcBits_self]

/-- A byte written past the bytes read changes none of them. -/
theorem State.readBytes_setByte_of_le (s : State) {a n b : Nat} (v : Byte) (h : a + n ≤ b) :
    (s.setByte b v).readBytes a n = s.readBytes a n := by
  refine List.map_congr_left fun i hi => ?_
  have hne : a + i ≠ b := by have := List.mem_range.mp hi; omega
  rw [State.byte_setByte, if_neg hne]

/-- A byte is read back from the low byte of a register that holds it. -/
theorem extractLsb'_setWidth_byte (x : Byte) : (x.setWidth 32).extractLsb' 0 8 = x := by
  ext i hi
  simp [show i < 32 by omega, hi]

/-- The frame of `s`: its bytes, followed by the checksum that CRC8 has given, and the operands of a CRCCHK of them all (R206). -/
def State.checksumFrame (s : State) : State :=
  (s.checksummed.setByte (s.a0 + s.a2) (s.checksummed.result.extractLsb' 0 8)).withArgs s.arg0 s.arg1 (s.arg2 + 1) s.arg3

section
variable (s : State)

theorem State.checksumFrame_a2 (h : s.a0 + s.a2 < 256) : s.checksumFrame.a2 = s.a2 + 1 :=
  BitVec.toNat_add_of_lt (show s.a2 + 1 < 2 ^ 32 by omega)

/-- The bytes before the checksum are those that CRC8 has read. -/
theorem State.checksumFrame_readBytes : s.checksumFrame.readBytes s.a0 s.a2 = s.readBytes s.a0 s.a2 :=
  s.checksummed.readBytes_setByte_of_le _ le_rfl

/-- The last byte is the checksum. -/
theorem State.checksumFrame_last : s.checksumFrame.byte (s.a0 + s.a2) = crc8 (s.readBytes s.a0 s.a2) := by
  rw [State.checksumFrame, State.withArgs_byte, State.byte_setByte, if_pos rfl]
  exact extractLsb'_setWidth_byte _

/-- CRCCHK of the frame finds its last byte to be the checksum of the others. -/
theorem State.checksumFrame_compared (h : s.a0 + s.a2 < 256) : s.checksumFrame.checksumCompared.result = 1 := by
  refine if_pos ?_
  have ha0 : s.checksumFrame.a0 = s.a0 := rfl
  rw [s.checksumFrame_a2 h, ha0, Nat.add_sub_cancel, ← Nat.add_assoc, Nat.add_sub_cancel, s.checksumFrame_readBytes,
    s.checksumFrame_last]

end

/-- Settles O32: the order by an example, the residue for every list, and CRCCHK of the frame that CRC8 was used to build. -/
theorem checksumResidueIsZero : Obligations.ChecksumResidueIsZero := by
  refine ⟨by decide +kernel, by decide +kernel, crc8_concat_self, fun s t (hrange : s.a0 + s.a2 < 256) hcrc8 => ?_⟩
  obtain rfl : s.checksummed = t :=
    Host.Outcome.next.inj ((execCrc8_completes fun _ => by omega).symm.trans hcrc8)
  have hlen := s.checksumFrame_a2 hrange
  refine ⟨_, execCrcchk_completes (s := s.checksumFrame) (by omega) ?_, s.checksumFrame_compared hrange, rfl⟩
  change s.a0 + s.checksumFrame.a2 - 1 < 256
  omega

/-! ### Errors in one byte (R207) -/

/-- Replacing one byte of a list by different bytes gives different checksums: the register can be traced back to that byte from the
end of the list, and reading it can be undone. -/
theorem crc8_set_injective {d : List Byte} {j : Nat} (hj : j < d.length) :
    Function.Injective fun x => crc8 (d.set j x) := by
  intro x y (h : crc8 (d.set j x) = crc8 (d.set j y))
  simp only [List.set_eq_take_append_cons_drop, if_pos hj, crc8_append, List.foldl_cons] at h
  exact crcBits_injective_right _ _ _ (foldl_crcBits_injective _ _ _ h)

/-- Flipping a bit of a byte changes it. -/
theorem xor_shiftLeft_ne (x : Byte) {k : Nat} (hk : k < 8) : x ^^^ (1#8 <<< k) ≠ x := by
  intro h
  have hbit := congrArg (·.getLsbD k) h
  simp [hk] at hbit

/-- Settles O33: the flipped byte differs from the one that stood in its place. The bound of 64 bytes is not needed. -/
theorem singleBitErrorsAreDetected : Obligations.SingleBitErrorsAreDetected := by
  intro d j k _ hj hk h
  have hself : d.set j (d.getD j 0) = d := by rw [List.getD_eq_getElem _ _ hj, List.set_getElem_self]
  exact xor_shiftLeft_ne _ hk (crc8_set_injective hj (h.trans (congrArg crc8 hself.symm)))

end Sys2Proof.Machine

/-! ## The receive pipeline: accumulation, the poll, the decode, and the frame got back (44_rx_pipeline.md) -/

namespace Sys2Proof.Machine

/-! ### RXAPPEND (R222) -/

/-- The state that RXAPPEND completes in, having accepted `k` bytes (R222). -/
def State.rxAppended (s : State) (k : Nat) : State :=
  { s with
    rxbuf := s.appended k
    cursor := BitVec.ofNat 6 (if s.cursor.toNat + k = 60 then 0 else s.cursor.toNat + k)
    lastact := if 0 < k then s.now else s.lastact
    rawReady := if s.cursor.toNat + k = 60 then true else s.rawReady
    radioEvents := if s.cursor.toNat + k = 60 then s.radioEvents ++ [.rearmRx] else s.radioEvents
    result := BitVec.ofNat 32 k
    cerr := .ok }

theorem State.afterAppend_eq (s : State) : { s.afterAppend with cerr := .ok } = s.rxAppended s.accepted := by
  unfold State.afterAppend State.rxAppended
  rw [s.appendBytes_accepted_cursor]
  by_cases hfull : s.cursor.toNat + s.accepted = 60
  · simp only [if_pos hfull]; rfl
  · simp only [if_neg hfull]; rfl

/-- RXAPPEND completes where the bytes it accepts are in range, and always with none to accept (R73). -/
theorem execRxappend_completes {s : State} {k : Nat} (hk : s.accepted = k) (h : 0 < k → s.a0 + k - 1 < 256) :
    execRxappend s = .next (s.rxAppended k) := by
  subst hk
  rw [execRxappend_eq, whenInRange_true _ _ _ ((bytesInRange_iff _ _).mpr h), s.afterAppend_eq]

/-- An append that leaves the block partial only copies its bytes, and advances the cursor past them (R222). -/
theorem State.rxAppended_of_lt {s : State} {k : Nat} (h : s.cursor.toNat + k < 60) : s.rxAppended k =
    { s with rxbuf := s.appended k, cursor := BitVec.ofNat 6 (s.cursor.toNat + k),
             lastact := if 0 < k then s.now else s.lastact, result := BitVec.ofNat 32 k, cerr := .ok } := by
  simp only [State.rxAppended, if_neg h.ne]

/-- The cursor stands behind the bytes copied, or at 0 where they complete the block (R48, R222). -/
theorem State.rxAppended_cursor {s : State} {k : Nat} (h : s.cursor.toNat + k ≤ 60) :
    (s.rxAppended k).cursor.toNat = if s.cursor.toNat + k = 60 then 0 else s.cursor.toNat + k := by
  refine (BitVec.toNat_ofNat _ _).trans (Nat.mod_eq_of_lt ?_)
  split <;> omega

/-- Settles O34: the block is completed or stays partial. -/
theorem rxappendAccumulates : Obligations.RxappendAccumulates := by
  intro s k hcursor hk hrange
  refine ⟨_, execRxappend_completes hk.symm hrange, rfl, fun j => s.getElem_appended k j j.isLt, rfl, ?_⟩
  have hcur := s.rxAppended_cursor (k := k) (by omega)
  split_ifs with hfull
  · exact ⟨BitVec.eq_of_toNat_eq (hcur.trans (if_pos hfull)), if_pos hfull, if_pos hfull⟩
  · exact ⟨hcur.trans (if_neg hfull), if_neg hfull, if_neg hfull⟩

/-! ### Two appends (R224) -/

/-- An append of no bytes leaves `RXBUF` as it is. -/
theorem State.appended_zero (s : State) : s.appended 0 = s.rxbuf := by
  refine Vector.ext fun j hj => ?_
  rw [State.getElem_appended _ _ _ hj, if_neg (by omega)]

/-- An append of no bytes changes only `RESULT` and `CERR` (R222, R223). -/
theorem State.rxAppended_zero {s : State} (h : s.cursor.toNat < 60) :
    s.rxAppended 0 = { s with result := 0, cerr := .ok } := by
  rw [State.rxAppended_of_lt h, s.appended_zero, Nat.add_zero, BitVec.ofNat_toNat, BitVec.setWidth_eq]
  rfl

/-- A copy of `n` bytes behind a copy of `m` is a copy of `m + n` bytes. -/
theorem State.appended_appended {s u : State} {m n : Nat} (hbuf : u.rxbuf = s.appended m)
    (hcursor : u.cursor.toNat = s.cursor.toNat + m) (haddr : u.a0 = s.a0 + m) (hbyte : u.byte = s.byte) :
    u.appended n = s.appended (m + n) := by
  refine Vector.ext fun j hj => ?_
  simp only [State.getElem_appended _ _ _ hj, hbuf, hcursor, haddr, hbyte]
  by_cases hfirst : j < s.cursor.toNat + m
  · rw [if_neg (by omega)]
    exact if_congr (by omega) rfl rfl
  · rw [if_neg (c := _ ∧ j < s.cursor.toNat + m) (by omega),
      show s.a0 + m + (j - (s.cursor.toNat + m)) = s.a0 + (j - s.cursor.toNat) by omega]
    exact if_congr (by omega) rfl rfl

/-- The operands of the second append, written after the first one, of `m` bytes, has completed (R224). -/
def State.secondAppend (s : State) (m : Nat) (a0 m' n' : Word) : State :=
  ((s.withArgs s.arg0 s.arg1 m' s.arg3).rxAppended m).withArgs a0 s.arg1 n' s.arg3

section
variable {s : State} {m n : Nat} {a0 m' n' : Word} (hfit : s.cursor.toNat + m + n ≤ 60)
include hfit

theorem State.secondAppend_cursor : (s.secondAppend m a0 m' n').cursor.toNat =
    if s.cursor.toNat + m = 60 then 0 else s.cursor.toNat + m :=
  State.rxAppended_cursor (s := s.withArgs s.arg0 s.arg1 m' s.arg3) (Nat.le_of_add_right_le hfit)

/-- Where the first append leaves the block partial, the second one goes on at its cursor; where it completes the block, nothing is
left to append. -/
theorem State.secondAppend_rxAppended (ha0 : a0.toNat = s.a0 + m) : (s.secondAppend m a0 m' n').rxAppended n =
    { s.rxAppended (m + n) with result := BitVec.ofNat 32 n, arg0 := a0, arg2 := n' } := by
  have hcur := State.secondAppend_cursor (a0 := a0) (m' := m') (n' := n') hfit
  obtain rfl | hn := n.eq_zero_or_pos
  · refine State.rxAppended_zero ?_
    rw [hcur]
    split <;> omega
  · have hpart : s.cursor.toNat + m < 60 := by omega
    rw [if_neg hpart.ne] at hcur
    have hfirst : (s.withArgs s.arg0 s.arg1 m' s.arg3).rxAppended m = _ := State.rxAppended_of_lt hpart
    have hbuf : (s.secondAppend m a0 m' n').appended n = s.appended (m + n) :=
      State.appended_appended rfl hcur ha0 rfl
    rw [State.rxAppended, State.rxAppended, hcur, hbuf, Nat.add_assoc, State.secondAppend, hfirst, if_pos hn,
      if_pos (show 0 < m + n by omega)]
    rfl

end

/-- RXAPPEND accepts bytes that fit the block, and completes where they are inside WRAM. -/
theorem execRxappend_of_fits {s : State} {k : Nat} (hlen : s.a2 = k) (hfit : s.cursor.toNat + k ≤ 60) (hrange : s.a0 + k ≤ 256) :
    execRxappend s = .next (s.rxAppended k) := by
  refine execRxappend_completes ?_ fun _ => by omega
  rw [State.accepted, hlen]
  exact Nat.min_eq_left (Nat.le_sub_of_add_le' hfit)

/-- Settles O35: each of the three appends completes, and the second one of the split as the one append does. -/
theorem splitAppendsJoin : Obligations.SplitAppendsJoin := by
  intro s m n _ hfit (hrange : s.a0 + m + n ≤ 256) hlen
  have hword {k : Nat} (hk : k ≤ 256) : (BitVec.ofNat 32 k).toNat = k :=
    (BitVec.toNat_ofNat _ _).trans (Nat.mod_eq_of_lt (by omega))
  have ha0 : (BitVec.ofNat 32 (s.a0 + m)).toNat = s.a0 + m := hword (by omega)
  have hboth : execRxappend s = _ := execRxappend_of_fits hlen (by omega) (by omega)
  have hfirst : execRxappend (s.withArgs s.arg0 s.arg1 (BitVec.ofNat 32 m) s.arg3) = _ :=
    execRxappend_of_fits (hword (by omega)) (Nat.le_of_add_right_le hfit) (Nat.le_of_add_right_le hrange)
  have hcursor := State.secondAppend_cursor (a0 := BitVec.ofNat 32 (s.a0 + m)) (m' := BitVec.ofNat 32 m) (n' := BitVec.ofNat 32 n) hfit
  have hsecond := execRxappend_of_fits (hword (k := n) (by omega)) (by rw [hcursor]; split <;> omega)
    (le_of_eq_of_le (congrArg (· + n) ha0) hrange)
  refine ⟨_, _, _, hboth, hfirst, hsecond, ?_⟩
  rw [State.secondAppend_rxAppended hfit ha0]

/-! ### The poll (R226, R227, R236) -/

/-- The state that RXPOLL completes in: the resync, the decode, and `PKT_READY` after both (R227). -/
def State.polled (s : State) : State :=
  { s.resync.decodeStep with result := if s.resync.decodeStep.pktReady then 1 else 0, cerr := .ok }

theorem execRxpoll_completes (s : State) : execRxpoll s = .next s.polled := by
  rw [execRxpoll, setWidth_ofBool]; rfl

section
variable {s : State}

/-- When no resync is due, over naturals (R237). -/
theorem State.resyncDue_eq_false_iff :
    s.resyncDue = false ↔ s.cursor = 0 ∨ (s.now.toNat + (2 ^ 32 - s.lastact.toNat)) % 2 ^ 32 ≤ 600 := by
  rw [← Bool.not_eq_true, s.resyncDue_iff, not_and_or, not_not, Nat.not_lt]

theorem State.resync_of_not_due (h : s.resyncDue = false) : s.resync = s := by
  rw [State.resync, h]; rfl

theorem State.resync_of_due (h : s.resyncDue = true) :
    s.resync = { s with cursor := 0, radioEvents := s.radioEvents ++ [.rearmRx] } := by
  rw [State.resync, h]; rfl

theorem State.decodeStep_of_not_rawReady (h : s.rawReady = false) : s.decodeStep = s := by
  rw [State.decodeStep, h]; rfl

theorem State.decodeStep_of_rawReady (h : s.rawReady = true) : s.decodeStep = s.deliver (decodeBlock s.rxbuf) := by
  rw [State.decodeStep, h]; rfl

theorem State.resync_pktReady (s : State) : s.resync.pktReady = s.pktReady := by
  obtain ⟨_, _, -, h⟩ := s.resync_eq
  rw [h]

/-- A poll with no block waiting decodes nothing (R226). -/
theorem State.polled_of_not_rawReady (hraw : s.rawReady = false) :
    s.polled = { s.resync with result := if s.pktReady then 1 else 0, cerr := .ok } := by
  rw [State.polled, State.decodeStep_of_not_rawReady (s.resync_rawReady.trans hraw), ← s.resync_pktReady]

/-- A poll that discards the waiting block (R233). -/
theorem State.polled_of_discard {oc : RxOutcome} (hraw : s.rawReady = true) (hd : decodeBlock s.rxbuf = .discard oc) :
    s.polled = { s.resync with rawReady := false, outcome := oc, result := if s.pktReady then 1 else 0, cerr := .ok } := by
  rw [State.polled, State.decodeStep_of_rawReady (s.resync_rawReady.trans hraw), s.resync_rxbuf, hd, ← s.resync_pktReady]
  rfl

/-- A poll that delivers the frame of the waiting block (R232). -/
theorem State.polled_of_frame {f : Vector Byte 9} {n : Nat} (hraw : s.rawReady = true) (hd : decodeBlock s.rxbuf = .frame f n) :
    s.polled = { s.resync with rawReady := false, outcome := .ok, lastFrame := f, lastlen := BitVec.ofNat 4 n, pktReady := true,
                               result := 1, cerr := .ok } := by
  rw [State.polled, State.decodeStep_of_rawReady (s.resync_rawReady.trans hraw), s.resync_rxbuf, hd]
  rfl

/-- A poll with no block waiting and no resync due (R227). -/
theorem State.polled_of_quiet (hraw : s.rawReady = false) (hdue : s.resyncDue = false) :
    s.polled = { s with result := if s.pktReady then 1 else 0, cerr := .ok } := by
  rw [State.polled_of_not_rawReady hraw, State.resync_of_not_due hdue]

end

/-- Settles O36: the poll is its resync. -/
theorem resyncResetsAPartialBlock : Obligations.ResyncResetsAPartialBlock := by
  intro s hraw hcursor hlate
  refine (execRxpoll_completes s).trans ?_
  rw [State.polled_of_not_rawReady hraw, State.resync_of_due (s.resyncDue_iff.mpr ⟨hcursor, hlate⟩)]

/-- Settles O37: neither the resync nor the decode is due. -/
theorem quietPollOnlyReports : Obligations.QuietPollOnlyReports := by
  intro s hraw hquiet
  refine (execRxpoll_completes s).trans ?_
  rw [State.polled_of_quiet hraw (State.resyncDue_eq_false_iff.mpr hquiet)]

/-- Settles O38: the decode delivers or discards. -/
theorem pollDecodesTheWaitingBlock : Obligations.PollDecodesTheWaitingBlock := by
  intro s hraw hquiet
  have hres := State.resync_of_not_due (State.resyncDue_eq_false_iff.mpr hquiet)
  refine ⟨fun f n hd => (execRxpoll_completes s).trans ?_, fun oc hd => (execRxpoll_completes s).trans ?_⟩
  · rw [State.polled_of_frame hraw hd, hres]
  · rw [State.polled_of_discard hraw hd, hres]

/-! ### What a poll does twice over, and both at once (R227) -/

/-- A decode carries the radio's record over (R52). -/
theorem State.decodeStep_withRadioEvents (s : State) (ev : List RadioEvent) :
    ({ s with radioEvents := ev } : State).decodeStep = { s.decodeStep with radioEvents := ev } := by
  obtain hraw | hraw := Bool.eq_false_or_eq_true s.rawReady
  · rw [State.decodeStep_of_rawReady hraw, State.decodeStep_of_rawReady (s := { s with radioEvents := ev }) hraw]
    cases decodeBlock s.rxbuf <;> rfl
  · rw [State.decodeStep_of_not_rawReady hraw, State.decodeStep_of_not_rawReady (s := { s with radioEvents := ev }) hraw]

/-- A poll that is due for a resync is the poll of the empty buffer, and one radio request (R236). -/
theorem State.polled_of_due {s : State} (h : s.resyncDue = true) :
    s.polled = { ({ s with cursor := 0 } : State).polled with radioEvents := s.radioEvents ++ [.rearmRx] } := by
  have hquiet : ({ s with cursor := 0 } : State).resync = _ :=
    State.resync_of_not_due (State.resyncDue_eq_false_iff.mpr (.inl rfl))
  rw [State.polled, State.polled, hquiet, State.resync_of_due h]
  rw [State.decodeStep_withRadioEvents { s with cursor := 0 }]

/-- Settles O39: the resync comes to the poll of the empty buffer and one request. -/
theorem resyncAndDecodeAreIndependent : Obligations.ResyncAndDecodeAreIndependent := by
  intro s t hcursor hlate hpoll
  obtain rfl := Host.Outcome.next.inj ((execRxpoll_completes _).symm.trans hpoll)
  refine (execRxpoll_completes s).trans ?_
  rw [State.polled_of_due (s.resyncDue_iff.mpr ⟨hcursor, hlate⟩)]

theorem State.polled_rawReady (s : State) : s.polled.rawReady = false := by
  obtain ⟨hraw, hdec⟩ | ⟨-, ⟨_, -, hdec⟩ | ⟨_, _, -, hdec⟩⟩ := s.resync.decodeStep_cases
  all_goals rw [State.polled, hdec]
  exact hraw

/-- A decode does not touch what the resync looks at (R236). -/
theorem State.decodeStep_resyncDue (s : State) : s.decodeStep.resyncDue = s.resyncDue := by
  obtain ⟨-, hdec⟩ | ⟨-, ⟨_, -, hdec⟩ | ⟨_, _, -, hdec⟩⟩ := s.decodeStep_cases
  all_goals rw [hdec]
  all_goals rfl

/-- After the resync none is due: it was not before, or the cursor is at 0. -/
theorem State.resync_resyncDue (s : State) : s.resync.resyncDue = false := by
  obtain ⟨hdue, h⟩ | ⟨-, h⟩ := s.resync_cases
  · rwa [h]
  · rw [h]; rfl

theorem State.polled_resyncDue (s : State) : s.polled.resyncDue = false :=
  s.resync.decodeStep_resyncDue.trans s.resync_resyncDue

/-- Settles O40: the first poll leaves no block waiting and no resync due. -/
theorem secondPollChangesNothing : Obligations.SecondPollChangesNothing := by
  intro s
  refine ⟨_, execRxpoll_completes s, (execRxpoll_completes _).trans ?_⟩
  rw [State.polled_of_quiet s.polled_rawReady s.polled_resyncDue]
  rfl

/-! ### RXGET (R240) -/

/-- The state that RXGET completes in (R240). -/
def State.got (s : State) : State :=
  { (s.writeBytes s.a1 s.lastFrame.toList) with result := s.lastlen.setWidth 32, pktReady := false, cerr := .ok }

theorem execRxget_completes {s : State} (h : s.a1 ≤ 247) : execRxget s = .next s.got :=
  whenInRange_true _ _ _ ((bytesInRange_iff _ _).mpr fun _ => Nat.lt_succ_of_le (Nat.add_le_add_right h 8))

/-- The nine bytes of the frame stand at `ARG1`. -/
theorem State.got_byte (s : State) (j : Fin 9) : s.got.byte (s.a1 + j.val) = s.lastFrame[j] := by
  have hj := j.isLt
  refine (s.byte_writeBytes _ _ _).trans ?_
  rw [if_pos (by rw [length_frame_toList]; omega), Nat.add_sub_cancel_left]
  simp [List.getD_eq_getElem?_getD]

/-- Settles O45: RXGET is one write of nine bytes. -/
theorem rxgetCopiesTheLastFrame : Obligations.RxgetCopiesTheLastFrame := by
  intro s h
  refine ⟨_, execRxget_completes h, ?_, s.got_byte, fun a ha => s.byte_writeBytes_of_outside ?_⟩
  · rw [State.got, State.writeBytes_eq]
  · rwa [length_frame_toList]

/-! ### How a decode ends (R230, R266) -/

/-- The pairs of decoded bits `lo` to `hi - 1` are valid (R165). -/
def PairsValid (buf : Vector Byte 60) (lo hi : Nat) : Prop := ∀ t, lo ≤ t → t < hi → badPair buf t = false

/-- The markers of groups `lo` to `hi - 1` are 1 (R180). -/
def MarkersSet (buf : Vector Byte 60) (lo hi : Nat) : Prop := ∀ g, lo ≤ g → g < hi → frameBit buf (5 * g) = true

/-- The last of the bytes is the checksum of those before it (R200). -/
def ChecksumHolds (d : List Byte) : Prop := crc8 (d.take (d.length - 1)) = d.getD (d.length - 1) 0

/-- The form in which the checksum stage tests it (R230). -/
theorem checksumHolds_iff (d : List Byte) : ChecksumHolds d ↔ crc8 d.dropLast = d.getLastD 0 := by
  rw [ChecksumHolds, List.dropLast_eq_take, List.getLastD_eq_getLast?, List.getLast?_eq_getElem?, List.getD_eq_getElem?_getD]

section
variable {buf : Vector Byte 60} {lo hi : Nat}

theorem not_pairsValid_iff : ¬ PairsValid buf lo hi ↔ ∃ t, lo ≤ t ∧ t < hi ∧ badPair buf t = true := by
  simp [PairsValid]

theorem not_markersSet_iff : ¬ MarkersSet buf lo hi ↔ ∃ g, lo ≤ g ∧ g < hi ∧ frameBit buf (5 * g) = false := by
  simp [MarkersSet]

end

/-- The first stage finds no error (R230). -/
structure FirstStagePasses (buf : Vector Byte 60) : Prop where
  pairs : PairsValid buf 0 60
  markers : MarkersSet buf 0 12

/-- The extra-byte stage finds no error in `x` bytes (R230, R231). -/
structure ExtraStagePasses (buf : Vector Byte 60) (x : Nat) : Prop where
  pairs : PairsValid buf 60 (60 + 10 * x)
  markers : MarkersSet buf 12 (12 + 2 * x)

/-- How the decode of a raw block ends, and with what: at its first failing stage, or with the frame that the block carries (R230,
R266). -/
inductive DecodeEnds (buf : Vector Byte 60) : DecodeResult → Prop
  | man1 (hbad : ¬ PairsValid buf 0 60) : DecodeEnds buf (.discard .man1)
  | frm1 (hpairs : PairsValid buf 0 60) (hbad : ¬ MarkersSet buf 0 12) : DecodeEnds buf (.discard .frm1)
  | lclass (h1 : FirstStagePasses buf) (hx : Config.extraBytes (carriedClass buf) = none) : DecodeEnds buf (.discard .lclass)
  | man2 {x : Nat} (h1 : FirstStagePasses buf) (hx : Config.extraBytes (carriedClass buf) = some x)
      (hbad : ¬ PairsValid buf 60 (60 + 10 * x)) : DecodeEnds buf (.discard .man2)
  | frm2 {x : Nat} (h1 : FirstStagePasses buf) (hx : Config.extraBytes (carriedClass buf) = some x)
      (hpairs : PairsValid buf 60 (60 + 10 * x)) (hbad : ¬ MarkersSet buf 12 (12 + 2 * x)) : DecodeEnds buf (.discard .frm2)
  | crc {x : Nat} (h1 : FirstStagePasses buf) (hx : Config.extraBytes (carriedClass buf) = some x) (h2 : ExtraStagePasses buf x)
      (hbad : ¬ ChecksumHolds (carriedBytes buf (6 + x))) : DecodeEnds buf (.discard .crc)
  | frame {x : Nat} (h1 : FirstStagePasses buf) (hx : Config.extraBytes (carriedClass buf) = some x) (h2 : ExtraStagePasses buf x)
      (hcrc : ChecksumHolds (carriedBytes buf (6 + x))) : DecodeEnds buf (.frame (frameOf (carriedBytes buf (6 + x))) (6 + x))

section
variable {buf : Vector Byte 60}

theorem decodeBlock_ends (buf : Vector Byte 60) : DecodeEnds buf (decodeBlock buf) := by
  rw [decodeBlock_eq]
  split_ifs with hpairs hmarkers
  · have h1 : FirstStagePasses buf := ⟨hpairs, hmarkers⟩
    cases hx : Config.extraBytes (carriedClass buf) with
    | none => exact .lclass h1 hx
    | some x =>
      simp only
      split_ifs with hpairs2 hmarkers2
      · obtain ⟨h, hcrc⟩ | ⟨h, hcrc⟩ := checksumStage_eq (carriedBytes buf (6 + x))
        · rw [h, length_carriedBytes]
          exact .frame h1 hx ⟨hpairs2, hmarkers2⟩ ((checksumHolds_iff _).mpr hcrc)
        · rw [h]
          exact .crc h1 hx ⟨hpairs2, hmarkers2⟩ (mt (checksumHolds_iff _).mp hcrc)
      · exact .frm2 h1 hx hpairs2 hmarkers2
      · exact .man2 h1 hx hpairs2
  · exact .frm1 hpairs hmarkers
  · exact .man1 hpairs

/-- Past the first stage only the length class decides how to go on (R201, R230). -/
theorem decodeBlock_of_lclass (h1 : FirstStagePasses buf) (hx : Config.extraBytes (carriedClass buf) = none) :
    decodeBlock buf = .discard .lclass := by
  refine (decodeBlock_eq buf).trans ((if_neg (not_not.mpr h1.pairs)).trans ((if_neg (not_not.mpr h1.markers)).trans ?_))
  rw [hx]

theorem decodeBlock_of_class {x : Nat} (h1 : FirstStagePasses buf) (hx : Config.extraBytes (carriedClass buf) = some x) :
    decodeBlock buf =
      if ¬ ∀ t, 60 ≤ t → t < 60 + 10 * x → badPair buf t = false then .discard .man2
      else if ¬ ∀ g, 12 ≤ g → g < 12 + 2 * x → frameBit buf (5 * g) = true then .discard .frm2
      else checksumStage (carriedBytes buf (6 + x)) := by
  refine (decodeBlock_eq buf).trans ((if_neg (not_not.mpr h1.pairs)).trans ((if_neg (not_not.mpr h1.markers)).trans ?_))
  rw [hx]

theorem decodeBlock_of_extraStage {x : Nat} (h1 : FirstStagePasses buf) (hx : Config.extraBytes (carriedClass buf) = some x)
    (h2 : ExtraStagePasses buf x) : decodeBlock buf = checksumStage (carriedBytes buf (6 + x)) :=
  (decodeBlock_of_class h1 hx).trans ((if_neg (not_not.mpr h2.pairs)).trans (if_neg (not_not.mpr h2.markers)))

/-- A decode ends as `DecodeEnds` says, and in no other way. -/
theorem decodeBlock_eq_iff {r : DecodeResult} : decodeBlock buf = r ↔ DecodeEnds buf r := by
  refine ⟨fun h => h ▸ decodeBlock_ends buf, fun h => ?_⟩
  cases h with
  | man1 hbad => exact (decodeBlock_eq buf).trans (if_pos hbad)
  | frm1 hpairs hbad => exact (decodeBlock_eq buf).trans ((if_neg (not_not.mpr hpairs)).trans (if_pos hbad))
  | lclass h1 hx => exact decodeBlock_of_lclass h1 hx
  | man2 h1 hx hbad => exact (decodeBlock_of_class h1 hx).trans (if_pos hbad)
  | frm2 h1 hx hpairs hbad => exact (decodeBlock_of_class h1 hx).trans ((if_neg (not_not.mpr hpairs)).trans (if_pos hbad))
  | crc h1 hx h2 hbad => exact (decodeBlock_of_extraStage h1 hx h2).trans (if_neg (mt (checksumHolds_iff _).mpr hbad))
  | frame h1 hx h2 hcrc =>
    refine (decodeBlock_of_extraStage h1 hx h2).trans ((if_pos ((checksumHolds_iff _).mp hcrc)).trans ?_)
    rw [length_carriedBytes]

/-! ### The discards, each at the first failing stage (R265, R266) -/

theorem decodeBlock_eq_man1_iff : decodeBlock buf = .discard .man1 ↔ ¬ PairsValid buf 0 60 :=
  decodeBlock_eq_iff.trans ⟨fun | .man1 hbad => hbad, .man1⟩

theorem decodeBlock_eq_frm1_iff : decodeBlock buf = .discard .frm1 ↔ PairsValid buf 0 60 ∧ ¬ MarkersSet buf 0 12 :=
  decodeBlock_eq_iff.trans ⟨fun | .frm1 hpairs hbad => ⟨hpairs, hbad⟩, fun ⟨hpairs, hbad⟩ => .frm1 hpairs hbad⟩

section
variable {x : Nat} (h1 : FirstStagePasses buf)
include h1

theorem decodeBlock_eq_lclass_iff : decodeBlock buf = .discard .lclass ↔ Config.extraBytes (carriedClass buf) = none :=
  decodeBlock_eq_iff.trans ⟨fun | .lclass _ hx => hx, .lclass h1⟩

variable (hx : Config.extraBytes (carriedClass buf) = some x)
include hx

theorem decodeBlock_eq_man2_iff : decodeBlock buf = .discard .man2 ↔ ¬ PairsValid buf 60 (60 + 10 * x) := by
  refine decodeBlock_eq_iff.trans ⟨fun h => ?_, .man2 h1 hx⟩
  cases h with
  | man2 _ hy hbad => rwa [← Option.some.inj (hy.symm.trans hx)]

theorem decodeBlock_eq_frm2_iff :
    decodeBlock buf = .discard .frm2 ↔ PairsValid buf 60 (60 + 10 * x) ∧ ¬ MarkersSet buf 12 (12 + 2 * x) := by
  refine decodeBlock_eq_iff.trans ⟨fun h => ?_, fun ⟨hpairs, hbad⟩ => .frm2 h1 hx hpairs hbad⟩
  cases h with
  | frm2 _ hy hpairs hbad =>
    obtain rfl := Option.some.inj (hy.symm.trans hx)
    exact ⟨hpairs, hbad⟩

theorem decodeBlock_eq_crc_iff : decodeBlock buf = .discard .crc ↔
    PairsValid buf 60 (60 + 10 * x) ∧ MarkersSet buf 12 (12 + 2 * x) ∧ ¬ ChecksumHolds (carriedBytes buf (6 + x)) := by
  refine decodeBlock_eq_iff.trans ⟨fun h => ?_, fun ⟨hpairs, hmarkers, hbad⟩ => .crc h1 hx ⟨hpairs, hmarkers⟩ hbad⟩
  cases h with
  | crc _ hy h2 hbad =>
    obtain rfl := Option.some.inj (hy.symm.trans hx)
    exact ⟨h2.pairs, h2.markers, hbad⟩

end

/-- Length class 3 asks for no number of bytes (R201). -/
theorem extraBytes_eq_none_iff :
    Config.extraBytes (carriedClass buf) = none ↔ carriedBit buf 4 7 = true ∧ carriedBit buf 4 6 = true := by
  simp only [Option.eq_none_iff_forall_ne_some, ne_eq, extraBytes_eq_some, ClassExtra]
  cases carriedBit buf 4 7 <;> cases carriedBit buf 4 6 <;> simp

/-- Bytes with the carried bits are the carried bytes (R234). -/
theorem eq_carriedBytes {d : List Byte} {n : Nat} (hlen : d.length = n)
    (hbits : ∀ b q, b < n → q < 8 → (d.getD b 0).getLsbD q = carriedBit buf b q) : d = carriedBytes buf n := by
  refine bytes_ext _ _ (by rw [hlen, length_carriedBytes]) fun b q hb hq => ?_
  rw [hlen] at hb
  rw [hbits b q hb hq, getLsbD_carriedBytes _ _ _ _ hb hq]

/-- The checksum of the carried bytes, as a statement about every list of bytes with the carried bits. -/
theorem not_checksumHolds_carriedBytes_iff {x : Nat} : ¬ ChecksumHolds (carriedBytes buf (6 + x)) ↔
    ∃ d : List Byte, d.length = 6 + x ∧ (∀ b q, b < 6 + x → q < 8 → (d.getD b 0).getLsbD q = carriedBit buf b q) ∧
      crc8 (d.take (5 + x)) ≠ d.getD (5 + x) 0 := by
  have hlast : 6 + x - 1 = 5 + x := by omega
  rw [ChecksumHolds, length_carriedBytes, hlast]
  constructor
  · exact fun hbad => ⟨_, length_carriedBytes _ _, fun b q hb hq => getLsbD_carriedBytes _ _ _ _ hb hq, hbad⟩
  · rintro ⟨d, hlen, hbits, hbad⟩
    rwa [← eq_carriedBytes hlen hbits]

end

/-- Settles O42: the ends of the decode, read over single bits. -/
theorem discardsFollowTheStageOrder : Obligations.DiscardsFollowTheStageOrder := by
  intro buf
  refine ⟨?_, ?_, fun hpairs hmarkers => ?_⟩
  · simpa using decodeBlock_eq_man1_iff.trans (not_pairsValid_iff (buf := buf))
  · simpa [not_markersSet_iff, PairsValid] using decodeBlock_eq_frm1_iff (buf := buf)
  · have h1 : FirstStagePasses buf := ⟨fun t _ => hpairs t, fun g _ => hmarkers g⟩
    refine ⟨(decodeBlock_eq_lclass_iff h1).trans extraBytes_eq_none_iff, fun x hclass => ?_⟩
    have hx := (extraBytes_eq_some buf x).mpr hclass
    refine ⟨(decodeBlock_eq_man2_iff h1 hx).trans not_pairsValid_iff,
      (decodeBlock_eq_frm2_iff h1 hx).trans (and_congr_right' not_markersSet_iff),
      (decodeBlock_eq_crc_iff h1 hx).trans (and_congr_right' (and_congr_right' not_checksumHolds_carriedBytes_iff))⟩

/-- Settles O44: the block is discarded as `MAN1`, and a discard carries the last frame over. -/
theorem corruptedBlockLeavesTheLastFrame : Obligations.CorruptedBlockLeavesTheLastFrame := by
  intro s p hraw hp hbad
  have hd : decodeBlock s.rxbuf = .discard .man1 :=
    decodeBlock_eq_man1_iff.mpr (not_pairsValid_iff.mpr ⟨p, p.zero_le, hp, hbad⟩)
  obtain ⟨_, _, -, hres⟩ := s.resync_eq
  refine ⟨_, execRxpoll_completes s, ?_⟩
  rw [State.polled_of_discard hraw hd, hres]
  exact ⟨rfl, rfl, rfl, rfl, rfl, rfl, rfl⟩

/-! ### The frame a block carries (R182, R234) -/

section
variable {buf : Vector Byte 60} {f : Vector Byte 9} {n : Nat}

theorem framedBit_marker (f : Vector Byte 9) (g : Nat) : framedBit f (5 * g) = true := if_pos (by omega)

theorem framedBit_framedPlace (f : Vector Byte 9) (b : Nat) {q : Nat} (hq : q < 8) :
    framedBit f (framedPlace b q) = (f.toList.getD b 0).getLsbD q := by
  have hbyte : framedPlace b q / 10 = b := by unfold framedPlace; split <;> omega
  have hbit : framedPlace b q % 10 - (if framedPlace b q % 10 < 5 then 1 else 2) = q := by
    unfold framedPlace; split <;> split <;> omega
  rw [framedBit, if_neg (framedPlace_mod_ne_zero b hq), hbyte, hbit]

/-- Every bit of a framed stream that is no marker is a payload bit. -/
theorem exists_framedPlace {t : Nat} (h : t % 5 ≠ 0) : ∃ b q, q < 8 ∧ t = framedPlace b q := by
  refine ⟨t / 10, t % 10 - (if t % 10 < 5 then 1 else 2), ?_, ?_⟩
  · split <;> omega
  · unfold framedPlace
    split <;> split <;> omega

theorem carriedBit_eq_frameBit (buf : Vector Byte 60) (b q : Nat) : carriedBit buf b q = frameBit buf (framedPlace b q) := rfl

theorem getD_take {l : List Byte} {b : Nat} (h : b < n) : (l.take n).getD b 0 = l.getD b 0 := by
  simp [List.getD_eq_getElem?_getD, h]

/-- The payload bits a block carries are those of the frame. -/
theorem Carries.carriedBit_eq (h : Carries buf f n) {b q : Nat} (hb : b < n) (hq : q < 8) :
    carriedBit buf b q = (f.toList.getD b 0).getLsbD q :=
  (h _ (framedPlace_lt hb hq)).2.trans (framedBit_framedPlace f b hq)

theorem Carries.carriedBytes_eq (h : Carries buf f n) (hn : n ≤ 9) : carriedBytes buf n = f.toList.take n := by
  refine (eq_carriedBytes ?_ fun b q hb hq => ?_).symm
  · rw [List.length_take, length_frame_toList]; exact Nat.min_eq_left hn
  · rw [getD_take hb, h.carriedBit_eq hb hq]

/-- A block carries a frame exactly where its pairs are valid, its markers are set, and its payload is the frame's bytes. -/
theorem carries_iff (hn : n ≤ 9) : Carries buf f n ↔
    PairsValid buf 0 (10 * n) ∧ MarkersSet buf 0 (2 * n) ∧ carriedBytes buf n = f.toList.take n := by
  constructor
  · exact fun h => ⟨fun t _ ht => (h t ht).1, fun g _ hg => (h (5 * g) (by omega)).2.trans (framedBit_marker f g),
      h.carriedBytes_eq hn⟩
  · rintro ⟨hpairs, hmarkers, hbytes⟩ t ht
    refine ⟨hpairs t t.zero_le ht, ?_⟩
    by_cases hmarker : t % 5 = 0
    · obtain ⟨g, rfl⟩ := Nat.dvd_of_mod_eq_zero hmarker
      rw [hmarkers g g.zero_le (by omega), framedBit_marker]
    · obtain ⟨b, q, hq, rfl⟩ := exists_framedPlace hmarker
      have hb : b < n := by unfold framedPlace at ht; omega
      rw [framedBit_framedPlace f b hq, ← getD_take hb, ← hbytes, getLsbD_carriedBytes _ _ _ _ hb hq, carriedBit_eq_frameBit]

/-- The two stages look at the pairs and the markers of one framed stream (R182). -/
theorem stagesPass_iff {x : Nat} : FirstStagePasses buf ∧ ExtraStagePasses buf x ↔
    PairsValid buf 0 (10 * (6 + x)) ∧ MarkersSet buf 0 (2 * (6 + x)) := by
  constructor
  · rintro ⟨h1, h2⟩
    refine ⟨fun t hlo hhi => ?_, fun g hlo hhi => ?_⟩
    · exact (Nat.lt_or_ge t 60).elim (h1.pairs t hlo) fun h => h2.pairs t h (by omega)
    · exact (Nat.lt_or_ge g 12).elim (h1.markers g hlo) fun h => h2.markers g h (by omega)
  · rintro ⟨hpairs, hmarkers⟩
    exact ⟨⟨fun t hlo hhi => hpairs t hlo (by omega), fun g hlo hhi => hmarkers g hlo (by omega)⟩,
      ⟨fun t _ hhi => hpairs t t.zero_le (by omega), fun g _ hhi => hmarkers g g.zero_le (by omega)⟩⟩

/-- The frame buffer of a validated frame's bytes is the frame. -/
theorem ValidFrame.frameOf_take (h : ValidFrame f n) : frameOf (f.toList.take n) = f := by
  refine Vector.ext fun j hj => ?_
  rw [getElem_frameOf _ _ hj]
  obtain hlt | hge := Nat.lt_or_ge j n
  · rw [getD_take hlt]
    exact (List.getD_eq_getElem _ _ (by rwa [length_frame_toList])).trans (Vector.getElem_toList _)
  · exact (List.getD_eq_default _ _ ((List.length_take_le _ _).trans hge)).trans (h.padded ⟨j, hj⟩ hge).symm

theorem ValidFrame.checksumHolds_take (h : ValidFrame f n) : ChecksumHolds (f.toList.take n) := by
  obtain ⟨hpos, hn⟩ := h.length_bounds
  have hlen : (f.toList.take n).length = n := by rw [List.length_take, length_frame_toList]; exact Nat.min_eq_left hn
  rw [ChecksumHolds, hlen, List.take_take, Nat.min_eq_left (n.sub_le 1), getD_take (by omega)]
  exact h.checksum

theorem carries_of_decodeBlock (h : decodeBlock buf = .frame f n) : Carries buf f n := by
  rw [carries_iff (validFrame_of_decodeBlock h).length_bounds.2]
  cases decodeBlock_eq_iff.mp h with
  | @frame x h1 hx h2 hcrc =>
    obtain ⟨hpairs, hmarkers⟩ := stagesPass_iff.mp ⟨h1, h2⟩
    have hlen : (carriedBytes buf (6 + x)).length = 6 + x := length_carriedBytes _ _
    have hn := (validFrame_of_decodeBlock h).length_bounds.2
    refine ⟨hpairs, hmarkers, ?_⟩
    rw [take_frameOf _ _ hlen.ge (hlen.trans_le hn), List.take_of_length_le hlen.le]

theorem decodeBlock_of_carries (hv : ValidFrame f n) (hc : Carries buf f n) : decodeBlock buf = .frame f n := by
  obtain ⟨x, hclass, rfl⟩ := hv.length
  obtain ⟨hpairs, hmarkers, hbytes⟩ := (carries_iff hv.length_bounds.2).mp hc
  obtain ⟨h1, h2⟩ := stagesPass_iff.mpr ⟨hpairs, hmarkers⟩
  have hx : Config.extraBytes (carriedClass buf) = some x := by
    rw [extraBytes_eq_some, hc.carriedBit_eq (by omega) (by decide), hc.carriedBit_eq (by omega) (by decide)]
    simpa [List.getD_eq_getElem?_getD] using hclass
  have hend := DecodeEnds.frame h1 hx h2 (hbytes ▸ hv.checksumHolds_take)
  rw [hbytes, hv.frameOf_take] at hend
  exact decodeBlock_eq_iff.mpr hend

end

/-- Settles O41: a delivered frame is the carried one, and a carried frame passes every stage. -/
theorem decodeDeliversExactlyCarriedFrames : Obligations.DecodeDeliversExactlyCarriedFrames :=
  fun _ _ _ => ⟨fun h => ⟨validFrame_of_decodeBlock h, carries_of_decodeBlock h⟩,
    fun ⟨hv, hc⟩ => decodeBlock_of_carries hv hc⟩

/-! ### What a decode does not read (R235) -/

/-- Two blocks have the same pairs of decoded bits `0 .. m - 1`, from physical bit 4 on (R234). -/
def SamePairs (buf buf' : Vector Byte 60) (m : Nat) : Prop := ∀ p, 4 ≤ p → p < 4 + 2 * m → airBit buf' p = airBit buf p

section
variable {buf buf' : Vector Byte 60} {m : Nat} (h : SamePairs buf buf' m)
include h

theorem SamePairs.badPair_eq {t : Nat} (ht : t < m) : badPair buf' t = badPair buf t := by
  rw [badPair, badPair, h _ (by omega) (by omega), h _ (by omega) (by omega)]

theorem SamePairs.frameBit_eq {t : Nat} (ht : t < m) : frameBit buf' t = frameBit buf t :=
  h _ (by omega) (by omega)

theorem SamePairs.carries {f : Vector Byte 9} {n : Nat} (hn : 10 * n ≤ m) (hc : Carries buf f n) : Carries buf' f n := by
  intro t ht
  rw [h.badPair_eq (ht.trans_le hn), h.frameBit_eq (ht.trans_le hn)]
  exact hc t ht

theorem SamePairs.pairsValid_iff {lo hi : Nat} (hhi : hi ≤ m) : PairsValid buf' lo hi ↔ PairsValid buf lo hi :=
  forall₃_congr fun t _ ht => by rw [h.badPair_eq (ht.trans_le hhi)]

theorem SamePairs.markersSet_iff {lo hi : Nat} (hhi : 5 * hi ≤ m) : MarkersSet buf' lo hi ↔ MarkersSet buf lo hi :=
  forall₃_congr fun g _ hg => by rw [h.frameBit_eq (by omega)]

theorem SamePairs.carriedBytes_eq {n : Nat} (hn : 10 * n ≤ m) : carriedBytes buf' n = carriedBytes buf n := by
  refine (eq_carriedBytes (length_carriedBytes _ _) fun b q hb hq => ?_).symm
  rw [getLsbD_carriedBytes _ _ _ _ hb hq, carriedBit_eq_frameBit, carriedBit_eq_frameBit,
    h.frameBit_eq ((framedPlace_lt hb hq).trans_le hn)]

theorem SamePairs.carriedClass_eq (hm : 60 ≤ m) : carriedClass buf' = carriedClass buf := by
  rw [carriedClass, h.carriedBytes_eq hm, carriedClass]

end

section
variable {buf buf' : Vector Byte 60} (h : SamePairs buf buf' 90)
include h

theorem SamePairs.firstStagePasses (h1 : FirstStagePasses buf) : FirstStagePasses buf' :=
  ⟨(h.pairsValid_iff (by decide)).mpr h1.pairs, (h.markersSet_iff (by decide)).mpr h1.markers⟩

/-- The longest frame has nine bytes, of 90 decoded bits: no stage looks at more. -/
theorem SamePairs.decodeEnds {r : DecodeResult} (he : DecodeEnds buf r) : DecodeEnds buf' r := by
  have hclass := h.carriedClass_eq (by decide)
  have hlen {x : Nat} (hx : Config.extraBytes (carriedClass buf) = some x) : x ≤ 3 := by
    have := ((extraBytes_eq_some buf x).mp hx).eq_or
    omega
  cases he with
  | man1 hbad => exact .man1 (mt (h.pairsValid_iff (by decide)).mp hbad)
  | frm1 hpairs hbad => exact .frm1 ((h.pairsValid_iff (by decide)).mpr hpairs) (mt (h.markersSet_iff (by decide)).mp hbad)
  | lclass h1 hx => exact .lclass (h.firstStagePasses h1) (hclass ▸ hx)
  | man2 h1 hx hbad =>
    have hx3 := hlen hx
    exact .man2 (h.firstStagePasses h1) (hclass ▸ hx) (mt (h.pairsValid_iff (by omega)).mp hbad)
  | frm2 h1 hx hpairs hbad =>
    have hx3 := hlen hx
    exact .frm2 (h.firstStagePasses h1) (hclass ▸ hx) ((h.pairsValid_iff (by omega)).mpr hpairs)
      (mt (h.markersSet_iff (by omega)).mp hbad)
  | crc h1 hx h2 hbad =>
    have hx3 := hlen hx
    refine .crc (h.firstStagePasses h1) (hclass ▸ hx)
      ⟨(h.pairsValid_iff (by omega)).mpr h2.pairs, (h.markersSet_iff (by omega)).mpr h2.markers⟩ ?_
    rwa [h.carriedBytes_eq (by omega)]
  | @frame x h1 hx h2 hcrc =>
    have hx3 := hlen hx
    have hbytes := h.carriedBytes_eq (n := 6 + x) (by omega)
    rw [← hbytes]
    exact .frame (h.firstStagePasses h1) (hclass ▸ hx)
      ⟨(h.pairsValid_iff (by omega)).mpr h2.pairs, (h.markersSet_iff (by omega)).mpr h2.markers⟩ (hbytes ▸ hcrc)

end

/-- Settles O43: a delivered frame is one that both blocks carry, and any decode ends as one of the same pairs does. -/
theorem decodeReadsOnlyTheFrameSpan : Obligations.DecodeReadsOnlyTheFrameSpan := by
  refine ⟨fun buf buf' f n hd hsame => ?_, fun buf buf' hsame => decodeBlock_eq_iff.mpr ?_⟩
  · have h : SamePairs buf buf' (10 * n) := fun p hlo hhi => hsame p hlo (by omega)
    exact decodeBlock_of_carries (validFrame_of_decodeBlock hd) (h.carries le_rfl (carries_of_decodeBlock hd))
  · have h : SamePairs buf buf' 90 := hsame
    exact h.decodeEnds (decodeBlock_ends buf)

/-! ### From the bytes of a block to the frame got back (R220) -/

/-- The state after a whole block has been appended to an empty buffer: it waits to be decoded (R222). -/
def State.holdingBlock (s : State) (buf : Vector Byte 60) : State :=
  { s with rxbuf := buf, cursor := 0, lastact := s.now, rawReady := true, radioEvents := s.radioEvents ++ [.rearmRx],
           result := 60, cerr := .ok }

theorem execRxappend_whole {s : State} {buf : Vector Byte 60} (hcursor : s.cursor = 0) (hlen : 60 ≤ s.a2)
    (hrange : s.a0 + 60 ≤ 256) (hbytes : ∀ j : Fin 60, s.byte (s.a0 + j.val) = buf[j]) :
    execRxappend s = .next (s.holdingBlock buf) := by
  have hzero : s.cursor.toNat = 0 := congrArg BitVec.toNat hcursor
  have haccepted : s.accepted = 60 := by
    rw [State.accepted, hzero]
    exact Nat.min_eq_right hlen
  have hbuf : s.appended 60 = buf := by
    refine Vector.ext fun j hj => ?_
    rw [s.getElem_appended _ _ hj, hzero, if_pos ⟨j.zero_le, by rwa [Nat.zero_add]⟩]
    exact hbytes ⟨j, hj⟩
  rw [execRxappend_completes haccepted fun _ => by omega, State.rxAppended, hzero, hbuf]
  rfl

/-- Settles O46: the append fills the block, the poll delivers the frame it carries, and RXGET copies that. -/
theorem carriedFrameIsReceived : Obligations.CarriedFrameIsReceived := by
  intro s buf f n hv hc hcursor hlen hrange hdst hbytes
  have hpoll := (pollDecodesTheWaitingBlock (s.holdingBlock buf) rfl (.inl rfl)).1 f n (decodeBlock_of_carries hv hc)
  refine ⟨_, _, _, execRxappend_whole hcursor hlen hrange hbytes, hpoll, execRxget_completes hdst, rfl, rfl, ?_, rfl,
    fun j => State.got_byte _ j⟩
  have hn := hv.length_bounds.2
  change ((BitVec.ofNat 4 n).setWidth 32).toNat = n
  rw [BitVec.toNat_setWidth, BitVec.toNat_ofNat]
  omega

end Sys2Proof.Machine

/-! ## Command errors, the next state of every command, and the idle block (60_exceptions.md) -/

namespace Sys2Proof.Machine

/-- Settles O50: the guard that every command runs behind fails outside WRAM, and raises `RANGE` before any operation. -/
theorem commandsOutOfRangeRaiseRange : Obligations.CommandsOutOfRangeRaiseRange := by
  intro i s hout hlen
  obtain ⟨ok, op, hexec, hok⟩ := exec_guarded i s hlen
  have hfails : ok = false := Bool.eq_false_iff.mpr (mt hok.mp hout)
  exact hexec.trans (whenInRange_false ok s op hfails)

/-- Settles O51: of the ends of a command only the error leaves `CERR` other than 0, and it writes nothing else. -/
theorem commandErrorsChangeOnlyCerr : Obligations.CommandErrorsChangeOnlyCerr := by
  intro i s t h hne
  cases exec_ends h with
  | error => rfl
  | stored | read | decoded | appendedPart | appendedBlock | polledQuiet | discarded | delivered | got =>
    exact absurd rfl hne

/-- Settles O3: with an empty queue a step takes no event. -/
theorem idleBlockKeepsItsState : Obligations.IdleBlockKeepsItsState := step_nil

/-- Settles O52: every arm of `exec` completes or raises a command error, and both are next states. -/
theorem everyCommandHasANextState : Obligations.EveryCommandHasANextState := exec_exists

end Sys2Proof.Machine

/-! ## Reset, and the first commands after it (70_reset_and_hazards.md) -/

namespace Sys2Proof.Machine

/-! ### The state after reset -/

/-- A byte that nothing has written since reset holds the free draw of that reset (R71). -/
theorem State.byte_of_wram_eq_nil {s : State} (h : s.wram = []) (a : Nat) : s.byte a = Config.wramAtReset s.resets a := by
  rw [State.byte, h]
  rfl

/-- `STATUS` reads 0 where its flags are clear and both of its codes are 0 (R35). -/
theorem State.status_eq_zero {s : State} (hce : s.cerr = .ok) (hraw : s.rawReady = false) (hpkt : s.pktReady = false)
    (hoc : s.outcome = .none) : s.status = 0 := by
  rw [State.status, hce, hraw, hpkt, hoc]
  rfl

/-- Every offset of the CSR region reads 0 after reset (R291). -/
theorem State.reset_csr (off : Nat) : State.reset.csr off = 0 := by
  unfold State.csr
  split
  case h_8 => exact State.status_eq_zero rfl rfl rfl rfl
  all_goals rfl

/-- Settles O1: each register and flag by its value, and WRAM because nothing has written it. -/
theorem resetLeavesTheStatedValues : Obligations.ResetLeavesTheStatedValues :=
  ⟨fun off _ => State.reset_csr off, rfl, rfl, rfl, rfl, rfl, rfl, fun a _ => State.byte_of_wram_eq_nil rfl a⟩

/-- Settles O2: a reset input that is next in the queue is taken off it, and its state has written no byte of WRAM. -/
theorem resetInputResetsTheBlock : Obligations.ResetInputResetsTheBlock := by
  intro s rest h
  exact ⟨_, step_cons s .reset rest h, rfl, fun a _ => State.byte_of_wram_eq_nil rfl a⟩

/-- Settles O59: the reset input's state meets the invariant, and differs from this one only in the count of resets. -/
theorem resetMeetsTheInvariant : Obligations.ResetMeetsTheInvariant :=
  State.reset.resetEvent_inv.of_same_frame rfl (show 0 < 60 by decide) rfl rfl id id

/-! ### The first commands (R293) -/

/-- Settles O48: RXPOLL finds no partial block and none waiting, CRC8 a length of 0, and RXGET the zero frame. -/
theorem firstCommandsAfterReset : Obligations.FirstCommandsAfterReset := by
  have hpoll : exec .rxpoll State.reset = .next State.reset := quietPollOnlyReports State.reset rfl (.inl rfl)
  have hcrc : exec .crc8 State.reset = .next State.reset := crc8ChecksumsTheBytes.2 State.reset rfl
  refine ⟨hpoll, hcrc, fun a ha => ?_⟩
  obtain ⟨t, ht, hframe, hbytes, -⟩ := rxgetCopiesTheLastFrame (State.reset.withArgs 0 a 0 0) ha
  refine ⟨t, ht, congrArg State.result hframe, congrArg State.radioEvents hframe, congrArg State.cerr hframe, fun j hj => ?_⟩
  calc
    t.byte (a.toNat + j) = State.reset.lastFrame[j] := hbytes ⟨j, hj⟩
    _ = 0 := Vector.getElem_replicate hj

end Sys2Proof.Machine
